-- ==== Sys2Proof/Word.lean ====
section
/-! DEFINITION. The words the machine computes with (00_scope.md R12, R13) and the sizes the source fixes and no model
may change (R8, R9). Every value is unsigned; nothing is sign-extended. -/

namespace Sys2Proof

/-- `u8`: a register, a memory byte, an immediate NN. -/
abbrev Byte := BitVec 8

/-- `u16`: the instruction word, `I`, `pc`, a return address. -/
abbrev Word := BitVec 16

/-- `u12`: the address field NNN of an instruction. -/
abbrev Addr12 := BitVec 12

/-- The number of a general register, or of a key (R14: `i` and `k` are in 0..15). -/
abbrev Reg := Fin 16

/-- `VF_INDEX` of R8: VF is V[0xF], the flag register. -/
abbrev flagReg : Reg := 15

/-- The registers V0 to VF, and the keys 0x0 to 0xF, in ascending order. -/
def allRegs : List Reg := [0, 1, 2, 3, 4, 5, 6, 7, 8, 9, 10, 11, 12, 13, 14, 15]

/-- `MEM_SIZE` of R8: addresses 0x000 to 0xFFF. -/
abbrev memSize : Nat := 0x1000

/-- `LOAD_BASE` of R8. -/
abbrev loadBase : Nat := 0x200

/-- `MAX_IMAGE` of R8: 4096 - 0x200. -/
abbrev maxImage : Nat := 3584

/-- `FB_W` of R8. -/
abbrev fbWidth : Nat := 64

/-- `FB_H` of R8. -/
abbrev fbHeight : Nat := 32

/-- `zext_16` of a byte (R13). -/
abbrev zextByte (b : Byte) : Word := b.setWidth 16

/-- `zext_16(NNN)` (R73). -/
abbrev zextAddr (nnn : Addr12) : Word := nnn.setWidth 16

end Sys2Proof
end

