-- ==== Sys2Proof/Config.lean ====
section
/-! DEFINITION. The parameters the spec leaves to a model (00_scope.md R8), with the spec's defaults, and the one free
value of the machine: the random byte of a step. -/

namespace Sys2Proof

/-- `TIMER_COUPLING` of R8 (40_step.md R111, 92_eei_decisions.md D14). -/
inductive TimerCoupling where
  | independent
  | perStep
deriving DecidableEq, Repr

/-- The parameters R8 marks as a decision. The sizes the source fixes (R9) are no part of it: they are the constants of
Word.lean. -/
structure Config where
  /-- `FONT_BASE`, an address (D9). -/
  fontBase : Addr12
  /-- `FONT_DATA`: 16 glyphs of 5 bytes, row 0 first (10_state.md R36, D9). -/
  fontData : Vector (Vector Byte 5) 16
  /-- `TIMER_COUPLING` (D14). -/
  timerCoupling : TimerCoupling
  /-- `STRICT_5_9` (D16, 90_conflicts.md C8). -/
  strict59 : Bool
deriving DecidableEq, Repr

namespace Config

/-- The font table of 10_state.md R36, the spec's default of `FONT_DATA`. PRESUMED by the spec itself (from general
knowledge, 93_implementation_defined.md G1): notes/assumptions/4.md. -/
def defaultFont : Vector (Vector Byte 5) 16 := #v[
  #v[0xF0, 0x90, 0x90, 0x90, 0xF0],
  #v[0x20, 0x60, 0x20, 0x20, 0x70],
  #v[0xF0, 0x10, 0xF0, 0x80, 0xF0],
  #v[0xF0, 0x10, 0xF0, 0x10, 0xF0],
  #v[0x90, 0x90, 0xF0, 0x10, 0x10],
  #v[0xF0, 0x80, 0xF0, 0x10, 0xF0],
  #v[0xF0, 0x80, 0xF0, 0x90, 0xF0],
  #v[0xF0, 0x10, 0x20, 0x40, 0x40],
  #v[0xF0, 0x90, 0xF0, 0x90, 0xF0],
  #v[0xF0, 0x90, 0xF0, 0x10, 0xF0],
  #v[0xF0, 0x90, 0xF0, 0x90, 0x90],
  #v[0xE0, 0x90, 0xE0, 0x90, 0xE0],
  #v[0xF0, 0x80, 0x80, 0x80, 0xF0],
  #v[0xE0, 0x90, 0x90, 0x90, 0xE0],
  #v[0xF0, 0x80, 0xF0, 0x80, 0xF0],
  #v[0xF0, 0x80, 0xF0, 0x80, 0x80]]

/-- Every parameter at its default (R8). -/
def default : Config where
  fontBase := 0x050
  fontData := defaultFont
  timerCoupling := .independent
  strict59 := true

/-- The random byte `r` of a `Step(r)` event (42_alu.md R151, D15), as a free value: the n-th byte drawn since the
machine's first state. It has no body, so no claim can depend on any value of it: notes/assumptions/1.md. -/
opaque randomByte : Nat → Byte

end Config

end Sys2Proof
end

