-- ==== Sys2Proof/Syntax.lean ====
section
/-! DEFINITION. The instructions: one constructor per row of spec/opcode_table.json (30_encoding.md R74, R81), with the
operand fields of R71 that the operation decodes. -/

namespace Sys2Proof

/-- The 34 operations of R81. `x` and `y` select V[X] and V[Y], `nn` is the immediate byte, `nnn` the 12-bit address, `n`
the row count of DXYN (R73). The row count is a count, held as a number and bounded by `Instr.wellFormed`. -/
inductive Instr where
  /-- 00E0, R190 -/
  | cls
  /-- 00EE, R121 -/
  | ret
  /-- 1NNN, R122 -/
  | jp (nnn : Addr12)
  /-- 2NNN, R123 -/
  | call (nnn : Addr12)
  /-- 3XNN, R124 -/
  | seImm (x : Reg) (nn : Byte)
  /-- 4XNN, R125 -/
  | sneImm (x : Reg) (nn : Byte)
  /-- 5XY0, R126 -/
  | seReg (x y : Reg)
  /-- 6XNN, R140 -/
  | ldImm (x : Reg) (nn : Byte)
  /-- 7XNN, R141 -/
  | addImm (x : Reg) (nn : Byte)
  /-- 8XY0, R142 -/
  | mov (x y : Reg)
  /-- 8XY1, R143 -/
  | or (x y : Reg)
  /-- 8XY2, R144 -/
  | and (x y : Reg)
  /-- 8XY3, R145 -/
  | xor (x y : Reg)
  /-- 8XY4, R146 -/
  | add (x y : Reg)
  /-- 8XY5, R147 -/
  | sub (x y : Reg)
  /-- 8XY6, R148; Y is decoded but not read (R77) -/
  | shr (x y : Reg)
  /-- 8XY7, R149 -/
  | subn (x y : Reg)
  /-- 8XYE, R150; Y is decoded but not read (R77) -/
  | shl (x y : Reg)
  /-- 9XY0, R127 -/
  | sneReg (x y : Reg)
  /-- ANNN, R170 -/
  | ldI (nnn : Addr12)
  /-- BNNN, R128 -/
  | jpV0 (nnn : Addr12)
  /-- CXNN, R151 -/
  | rnd (x : Reg) (nn : Byte)
  /-- DXYN, R191 -/
  | drw (x y : Reg) (n : Nat)
  /-- EX9E, R200 -/
  | skp (x : Reg)
  /-- EXA1, R201 -/
  | sknp (x : Reg)
  /-- FX07, R202 -/
  | ldXDt (x : Reg)
  /-- FX0A, R203 -/
  | ldXK (x : Reg)
  /-- FX15, R204 -/
  | ldDtX (x : Reg)
  /-- FX18, R205 -/
  | ldStX (x : Reg)
  /-- FX1E, R171 -/
  | addIX (x : Reg)
  /-- FX29, R172 -/
  | ldFX (x : Reg)
  /-- FX33, R173 -/
  | bcd (x : Reg)
  /-- FX55, R174 -/
  | store (x : Reg)
  /-- FX65, R175 -/
  | load (x : Reg)
deriving DecidableEq, Repr

end Sys2Proof
end

