-- ==== Sys2Proof/WellFormed.lean ====
section
/-! DEFINITION. Which terms of `Instr` are instructions of the machine: those whose operands fit the fields of
30_encoding.md R71. Register numbers, immediates and addresses have the field's width in their types; the row count of
DXYN, a 4-bit count 0..15 (R73), is the one operand a term could write too large. -/

namespace Sys2Proof

/-- R73: "N is a 4-bit count 0..15". Every other operand is in range by its type. -/
def Instr.wellFormed : Instr → Bool
  | .drw _ _ n => decide (n < 16)
  | .cls | .ret | .jp _ | .call _ | .seImm _ _ | .sneImm _ _ | .seReg _ _ | .ldImm _ _ | .addImm _ _ | .mov _ _
  | .or _ _ | .and _ _ | .xor _ _ | .add _ _ | .sub _ _ | .shr _ _ | .subn _ _ | .shl _ _ | .sneReg _ _ | .ldI _
  | .jpV0 _ | .rnd _ _ | .skp _ | .sknp _ | .ldXDt _ | .ldXK _ | .ldDtX _ | .ldStX _ | .addIX _ | .ldFX _ | .bcd _
  | .store _ | .load _ => true

/-- The check as a proposition. -/
abbrev Instr.WellFormed (i : Instr) : Prop := i.wellFormed = true

end Sys2Proof
end

