-- ==== Sys2Proof/Decode.lean ====
section
/-! DEFINITION. Fetching order of an instruction's bytes, the fields of 30_encoding.md R71, the decoder of R74 (total on
every word and on any list of bytes, rejecting by name) and, after it, the encoder of R83, written from the formats of
R72 and independently of the decoder. -/

namespace Sys2Proof

/-- R55, R101: the byte at the lower address is the high byte of the word, `w = hi * 0x100 + lo`. -/
def wordOfBytes (hi lo : Byte) : Word := BitVec.ofNat 16 (hi.toNat * 0x100 + lo.toNat)

/-- The high byte of a word, stored at the lower address (R83). -/
def highByte (w : Word) : Byte := w.extractLsb' 8 8

/-- The low byte of a word, stored at the higher address (R83). -/
def lowByte (w : Word) : Byte := w.extractLsb' 0 8

/-- `G = w[15:12]` (R71). -/
def fieldG (w : Word) : Nat := (w.extractLsb' 12 4).toNat

/-- `X = w[11:8]` (R71). -/
def fieldX (w : Word) : Reg := (w.extractLsb' 8 4).toFin

/-- `Y = w[7:4]` (R71). -/
def fieldY (w : Word) : Reg := (w.extractLsb' 4 4).toFin

/-- `N = w[3:0]` (R71). -/
def fieldN (w : Word) : Nat := (w.extractLsb' 0 4).toNat

/-- `NN = w[7:0]` (R71). -/
def fieldNN (w : Word) : Byte := w.extractLsb' 0 8

/-- `NNN = w[11:0]` (R71). -/
def fieldNNN (w : Word) : Addr12 := w.extractLsb' 0 12

/-- Why a byte sequence is no instruction. -/
inductive DecodeReject where
  /-- Fewer than the two bytes every instruction has (R70). -/
  | truncated
  /-- The word matches no row of the table: `Invalid` of R74. -/
  | invalid (w : Word)
deriving DecidableEq, Repr

/-- Group 8 of R74 and R77: N selects the operation. -/
def decodeGroup8 (w : Word) : Option Instr :=
  let x := fieldX w
  let y := fieldY w
  match fieldN w with
  | 0x0 => some (.mov x y)
  | 0x1 => some (.or x y)
  | 0x2 => some (.and x y)
  | 0x3 => some (.xor x y)
  | 0x4 => some (.add x y)
  | 0x5 => some (.sub x y)
  | 0x6 => some (.shr x y)
  | 0x7 => some (.subn x y)
  | 0xE => some (.shl x y)
  | _ => none

/-- Group E of R74 and R77: NN selects the operation. -/
def decodeGroupE (w : Word) : Option Instr :=
  let x := fieldX w
  let nn := fieldNN w
  if nn = 0x9E then some (.skp x)
  else if nn = 0xA1 then some (.sknp x)
  else none

/-- Group F of R74 and R77: NN selects the operation. -/
def decodeGroupF (w : Word) : Option Instr :=
  let x := fieldX w
  let nn := fieldNN w
  if nn = 0x07 then some (.ldXDt x)
  else if nn = 0x0A then some (.ldXK x)
  else if nn = 0x15 then some (.ldDtX x)
  else if nn = 0x18 then some (.ldStX x)
  else if nn = 0x1E then some (.addIX x)
  else if nn = 0x29 then some (.ldFX x)
  else if nn = 0x33 then some (.bcd x)
  else if nn = 0x55 then some (.store x)
  else if nn = 0x65 then some (.load x)
  else none

/-- `decode(w)` of R74, with the parameter `STRICT_5_9` (R76); `none` is `Invalid` (R79). Group 0 decodes the whole word
(R75). It depends on nothing but the word and the parameter. -/
def decodeWord (strict59 : Bool) (w : Word) : Option Instr :=
  match fieldG w with
  | 0x0 => if w = 0x00E0 then some .cls else if w = 0x00EE then some .ret else none
  | 0x1 => some (.jp (fieldNNN w))
  | 0x2 => some (.call (fieldNNN w))
  | 0x3 => some (.seImm (fieldX w) (fieldNN w))
  | 0x4 => some (.sneImm (fieldX w) (fieldNN w))
  | 0x5 => if strict59 && fieldN w != 0 then none else some (.seReg (fieldX w) (fieldY w))
  | 0x6 => some (.ldImm (fieldX w) (fieldNN w))
  | 0x7 => some (.addImm (fieldX w) (fieldNN w))
  | 0x8 => decodeGroup8 w
  | 0x9 => if strict59 && fieldN w != 0 then none else some (.sneReg (fieldX w) (fieldY w))
  | 0xA => some (.ldI (fieldNNN w))
  | 0xB => some (.jpV0 (fieldNNN w))
  | 0xC => some (.rnd (fieldX w) (fieldNN w))
  | 0xD => some (.drw (fieldX w) (fieldY w) (fieldN w))
  | 0xE => decodeGroupE w
  | 0xF => decodeGroupF w
  | _ => none

/-- The decoder on a byte sequence: the instruction of its first two bytes and the bytes after it, or the name of what is
wrong (R70, R79). -/
def decodeBytes (strict59 : Bool) : List Byte → Except DecodeReject (Instr × List Byte)
  | hi :: lo :: rest =>
    let w := wordOfBytes hi lo
    match decodeWord strict59 w with
    | some i => .ok (i, rest)
    | none => .error (.invalid w)
  | [_] => .error .truncated
  | [] => .error .truncated

/-- What the decoder reads from an instruction whose bits are `w`, numbered as spec/opcode_table.json numbers them: bit 0
is the least significant bit of the one 16-bit word, whose high byte is stored first. The parameters are at their
defaults, as the table's are. -/
def decodeTableWord (nbits w : Nat) : Option Instr :=
  let word : Word := BitVec.ofNat 16 (w % 2 ^ nbits)
  match decodeBytes Config.default.strict59 [highByte word, lowByte word] with
  | .ok (i, _) => some i
  | .error _ => none

/-- Format G-NNN of R83. -/
def encodeNNN (g : Nat) (nnn : Addr12) : Word := BitVec.ofNat 16 (g * 0x1000 + nnn.toNat)

/-- Format G-X-NN of R83; with a fixed `nn` it is the format G-X-SS. -/
def encodeXNN (g : Nat) (x : Reg) (nn : Byte) : Word := BitVec.ofNat 16 (g * 0x1000 + x.val * 0x100 + nn.toNat)

/-- Formats G-X-Y-S and G-X-Y-N of R83. -/
def encodeXYN (g : Nat) (x y : Reg) (n : Nat) : Word :=
  BitVec.ofNat 16 (g * 0x1000 + x.val * 0x100 + y.val * 0x10 + n)

/-- The word of an instruction (R72, R81, R83). An operand word of 5XY0 and 9XY0 has bits 3..0 zero, which decodes to the
same operation under both values of `STRICT_5_9`. -/
def encode : Instr → Word
  | .cls => 0x00E0
  | .ret => 0x00EE
  | .jp nnn => encodeNNN 0x1 nnn
  | .call nnn => encodeNNN 0x2 nnn
  | .seImm x nn => encodeXNN 0x3 x nn
  | .sneImm x nn => encodeXNN 0x4 x nn
  | .seReg x y => encodeXYN 0x5 x y 0x0
  | .ldImm x nn => encodeXNN 0x6 x nn
  | .addImm x nn => encodeXNN 0x7 x nn
  | .mov x y => encodeXYN 0x8 x y 0x0
  | .or x y => encodeXYN 0x8 x y 0x1
  | .and x y => encodeXYN 0x8 x y 0x2
  | .xor x y => encodeXYN 0x8 x y 0x3
  | .add x y => encodeXYN 0x8 x y 0x4
  | .sub x y => encodeXYN 0x8 x y 0x5
  | .shr x y => encodeXYN 0x8 x y 0x6
  | .subn x y => encodeXYN 0x8 x y 0x7
  | .shl x y => encodeXYN 0x8 x y 0xE
  | .sneReg x y => encodeXYN 0x9 x y 0x0
  | .ldI nnn => encodeNNN 0xA nnn
  | .jpV0 nnn => encodeNNN 0xB nnn
  | .rnd x nn => encodeXNN 0xC x nn
  | .drw x y n => encodeXYN 0xD x y n
  | .skp x => encodeXNN 0xE x 0x9E
  | .sknp x => encodeXNN 0xE x 0xA1
  | .ldXDt x => encodeXNN 0xF x 0x07
  | .ldXK x => encodeXNN 0xF x 0x0A
  | .ldDtX x => encodeXNN 0xF x 0x15
  | .ldStX x => encodeXNN 0xF x 0x18
  | .addIX x => encodeXNN 0xF x 0x1E
  | .ldFX x => encodeXNN 0xF x 0x29
  | .bcd x => encodeXNN 0xF x 0x33
  | .store x => encodeXNN 0xF x 0x55
  | .load x => encodeXNN 0xF x 0x65

/-- The bytes of an instruction as memory holds them, lowest address first (R83). -/
def encodeBytes (i : Instr) : List Byte := [highByte (encode i), lowByte (encode i)]

/-- The row of the opcode map of R81 an instruction stands in: `match` and `mask`, with `STRICT_5_9 = true`. -/
def Instr.row : Instr → Word × Word
  | .cls => (0x00E0, 0xFFFF)
  | .ret => (0x00EE, 0xFFFF)
  | .jp _ => (0x1000, 0xF000)
  | .call _ => (0x2000, 0xF000)
  | .seImm _ _ => (0x3000, 0xF000)
  | .sneImm _ _ => (0x4000, 0xF000)
  | .seReg _ _ => (0x5000, 0xF00F)
  | .ldImm _ _ => (0x6000, 0xF000)
  | .addImm _ _ => (0x7000, 0xF000)
  | .mov _ _ => (0x8000, 0xF00F)
  | .or _ _ => (0x8001, 0xF00F)
  | .and _ _ => (0x8002, 0xF00F)
  | .xor _ _ => (0x8003, 0xF00F)
  | .add _ _ => (0x8004, 0xF00F)
  | .sub _ _ => (0x8005, 0xF00F)
  | .shr _ _ => (0x8006, 0xF00F)
  | .subn _ _ => (0x8007, 0xF00F)
  | .shl _ _ => (0x800E, 0xF00F)
  | .sneReg _ _ => (0x9000, 0xF00F)
  | .ldI _ => (0xA000, 0xF000)
  | .jpV0 _ => (0xB000, 0xF000)
  | .rnd _ _ => (0xC000, 0xF000)
  | .drw _ _ _ => (0xD000, 0xF000)
  | .skp _ => (0xE09E, 0xF0FF)
  | .sknp _ => (0xE0A1, 0xF0FF)
  | .ldXDt _ => (0xF007, 0xF0FF)
  | .ldXK _ => (0xF00A, 0xF0FF)
  | .ldDtX _ => (0xF015, 0xF0FF)
  | .ldStX _ => (0xF018, 0xF0FF)
  | .addIX _ => (0xF01E, 0xF0FF)
  | .ldFX _ => (0xF029, 0xF0FF)
  | .bcd _ => (0xF033, 0xF0FF)
  | .store _ => (0xF055, 0xF0FF)
  | .load _ => (0xF065, 0xF0FF)

/-- The opcode map of R81, its `match` and `mask` columns in its order. -/
def opcodeMap : List (Word × Word) :=
  [(0x00E0, 0xFFFF), (0x00EE, 0xFFFF), (0x1000, 0xF000), (0x2000, 0xF000), (0x3000, 0xF000), (0x4000, 0xF000),
   (0x5000, 0xF00F), (0x6000, 0xF000), (0x7000, 0xF000), (0x8000, 0xF00F), (0x8001, 0xF00F), (0x8002, 0xF00F),
   (0x8003, 0xF00F), (0x8004, 0xF00F), (0x8005, 0xF00F), (0x8006, 0xF00F), (0x8007, 0xF00F), (0x800E, 0xF00F),
   (0x9000, 0xF00F), (0xA000, 0xF000), (0xB000, 0xF000), (0xC000, 0xF000), (0xD000, 0xF000), (0xE09E, 0xF0FF),
   (0xE0A1, 0xF0FF), (0xF007, 0xF0FF), (0xF00A, 0xF0FF), (0xF015, 0xF0FF), (0xF018, 0xF0FF), (0xF01E, 0xF0FF),
   (0xF029, 0xF0FF), (0xF033, 0xF0FF), (0xF055, 0xF0FF), (0xF065, 0xF0FF)]

/-- R81: "A word w selects the operation of a row when w AND mask = match". -/
def selects (w : Word) (row : Word × Word) : Bool := w &&& row.2 == row.1

end Sys2Proof
end

