-- ==== Sys2Proof/Machine/State.lean ====
section
/-! DEFINITION. The state of the core (10_state.md R20 to R39), the three outcomes' reasons, and the state after reset
(R38, 70_reset_and_hazards.md R250). State is plain data. -/

namespace Sys2Proof.Machine

/-- The fault kinds of 60_exceptions.md R221. A fault of the core is a state, not an outcome: `Status.faulted`. -/
inductive FaultKind where
  | invalidInstruction
  | stackOverflow
  | stackUnderflow
  | memoryBounds
  | keyIndex
deriving DecidableEq, Repr

/-- The fault record of R34. -/
structure FaultRecord where
  kind : FaultKind
  /-- The address the faulting word was fetched from. -/
  addr : Word
  /-- The word, or none for a fetch fault. -/
  word : Option Word
  /-- The value that caused the fault (R221). -/
  info : Word
deriving DecidableEq, Repr

/-- The status of R33. -/
inductive Status where
  | running
  | faulted (rec : FaultRecord)
deriving DecidableEq, Repr

/-- The memory of R35 and R50 as the list of the bytes that differ from the reset contents, addresses rising. -/
abbrev Memory := List Host.Cell

/-- The framebuffer of R31: 32 rows of 64 pixels, the pixel at column x of row y being bit x of entry y. -/
abbrev Framebuffer := Vector (BitVec 64) 32

/-- The state elements of R20 to R35, one field each, and the model's own two fields, `cfg` and `draws`. -/
structure State where
  /-- V0 to VF (R20). -/
  v : Vector Byte 16
  /-- The index register (R24). -/
  i : Word
  /-- The program counter (R25). -/
  pc : Word
  /-- The number of stack entries in use, 0 to 16 (R28). -/
  sp : Fin 17
  /-- The return-address stack (R28). -/
  stack : Vector Word 16
  /-- The delay timer (R29). -/
  dt : Byte
  /-- The sound timer (R29). -/
  st : Byte
  /-- The framebuffer (R31). -/
  fb : Framebuffer
  /-- The key matrix, true = pressed (R32). -/
  key : Vector Bool 16
  /-- Memory (R35), listed where it differs from the reset contents. -/
  mem : Memory
  /-- Running, or faulted with its record (R33). -/
  status : Status
  /-- The parameters of R8. The model's own field: no event writes it (notes/assumptions/2.md). -/
  cfg : Config
  /-- How many random bytes have been drawn. The model's own field (notes/assumptions/1.md). -/
  draws : Nat
deriving DecidableEq, Repr

/-- Why a step could stop without a next state. There is no such reason: every fault the spec describes has its entry in
the spec (40_step.md R108) and is taken, so it ends in a next state with the status `faulted`; no meaning raises an
outcome of this type (safe: nothing is left out by it). -/
inductive Fault where
deriving DecidableEq, Repr

/-- Why an instruction would have no meaning. -/
inductive Refusal where
  /-- Raised by `exec` for an instruction without a meaning; every instruction has one, so no arm raises it (safe). -/
  | notModelled (mnemonic : String)
deriving DecidableEq, Repr

/-- What a step answers. -/
abbrev Outcome := Host.Outcome State Fault Refusal

/-- The state after `Reset` (R38, R250): everything zero but `pc`, the memory holding its reset contents (nothing listed),
the status running. -/
def State.reset : State where
  v := Vector.replicate 16 0
  i := 0
  pc := 0x200
  sp := 0
  stack := Vector.replicate 16 0
  dt := 0
  st := 0
  fb := Vector.replicate 32 0
  key := Vector.replicate 16 false
  mem := []
  status := .running
  cfg := Config.default
  draws := 0

end Sys2Proof.Machine
end

