-- ==== Sys2Proof/Machine/Ops.lean ====
section
/-! DEFINITION. The named operations over memory, registers, stack, framebuffer and status that every meaning is written
with; taking a fault (40_step.md R108), the tick (45_keys_timers.md R210), the fetch (R101) and the step cycle (R110).
The spec has no return from a fault (60_exceptions.md R227): the way out is the `Reset` event of Machine/Events.lean. -/

namespace Sys2Proof.Machine

/-! ### Memory (20_memory.md) -/

/-- What a memory address holds after reset, and so what an unlisted address reads as (R38, R51): the font table in the
font region, 0 elsewhere. -/
def resetByte (c : Config) (a : Nat) : Byte :=
  let off := a - c.fontBase.toNat
  if c.fontBase.toNat ≤ a ∧ off < 80 then
    match c.fontData[off / 5]? with
    | some glyph => (glyph[off % 5]?).getD 0
    | none => 0
  else 0

/-- The byte listed at an address, if any. -/
def Memory.lookup : Memory → Nat → Option Byte
  | [], _ => none
  | (a, b) :: m, k => if k = a then some b else Memory.lookup m k

/-- List a byte at an address, addresses rising. -/
def Memory.insert : Memory → Nat → Byte → Memory
  | [], k, v => [(k, v)]
  | (a, b) :: m, k, v =>
    if k < a then (k, v) :: (a, b) :: m
    else if k = a then (k, v) :: m
    else (a, b) :: Memory.insert m k v

/-- Take an address off the list. -/
def Memory.erase : Memory → Nat → Memory
  | [], _ => []
  | (a, b) :: m, k => if k = a then Memory.erase m k else (a, b) :: Memory.erase m k

/-- The contents of an address. -/
def Memory.read (c : Config) (m : Memory) (a : Nat) : Byte := (Memory.lookup m a).getD (resetByte c a)

/-- Memory with a byte written; a byte equal to the reset contents is not listed, so that equal memories are equal
data. -/
def Memory.write (c : Config) (m : Memory) (a : Nat) (b : Byte) : Memory :=
  if b = resetByte c a then Memory.erase m a else Memory.insert m a b

/-- The canonical form from address `lo` on: addresses rising and inside the memory of R50, no byte equal to the reset
contents. -/
def Memory.wfFrom (c : Config) : Nat → Memory → Bool
  | _, [] => true
  | lo, (a, b) :: m => decide (lo ≤ a) && decide (a < memSize) && decide (b ≠ resetByte c a) && Memory.wfFrom c (a + 1) m

/-- The canonical form of a memory. -/
def Memory.wf (c : Config) (m : Memory) : Bool := Memory.wfFrom c 0 m

/-- `mem[a]`, the contents of an address. -/
def State.byteAt (s : State) (a : Nat) : Byte := Memory.read s.cfg s.mem a

/-- `mem[a] <- b`. -/
def State.setByte (s : State) (a : Nat) (b : Byte) : State := { s with mem := Memory.write s.cfg s.mem a b }

/-- `MemRead(a, 1)` (R52); `none` is `raise MemoryBounds(a)`. -/
def memRead (s : State) (a : Nat) : Option Byte := if a > 0xFFF then none else some (s.byteAt a)

/-- `MemWrite(a, 1, v)` (R53); `none` is `raise MemoryBounds(a)`. -/
def memWrite (s : State) (a : Nat) (b : Byte) : Option State := if a > 0xFFF then none else some (s.setByte a b)

/-- Consecutive bytes written, the first at the lowest address (R55, R57). -/
def State.writeBytes (s : State) : Nat → List Byte → State
  | _, [] => s
  | a, b :: bs => State.writeBytes (s.setByte a b) (a + 1) bs

/-- The check an access of `len` bytes at `base` makes before it writes anything (43_index_memory.md R169): the first
address above 0xFFF in its access order, if there is one. -/
def firstOutOfRange (base : Word) (len : Nat) : Option Word :=
  if 0 < len ∧ base.toNat + len - 1 > 0xFFF then some (BitVec.ofNat 16 (max base.toNat 0x1000)) else none

/-! ### Registers (10_state.md R20 to R29) -/

/-- `V[x]`. -/
def State.reg (s : State) (x : Reg) : Byte := s.v[x]

/-- `V[x] <- b`. -/
def State.setReg (s : State) (x : Reg) (b : Byte) : State := { s with v := s.v.set x.val b x.isLt }

/-- `I <- w`. -/
def State.setI (s : State) (w : Word) : State := { s with i := w }

/-- `pc <- w`. -/
def State.setPc (s : State) (w : Word) : State := { s with pc := w }

/-- `DT <- b`. -/
def State.setDt (s : State) (b : Byte) : State := { s with dt := b }

/-- `ST <- b`. -/
def State.setSt (s : State) (b : Byte) : State := { s with st := b }

/-- `fb <- f`, the whole framebuffer. -/
def State.setFb (s : State) (f : Framebuffer) : State := { s with fb := f }

/-- `key[k] <- b`. -/
def State.setKey (s : State) (k : Reg) (b : Bool) : State := { s with key := s.key.set k.val b k.isLt }

/-- One more random byte drawn. -/
def State.drawn (s : State) : State := { s with draws := s.draws + 1 }

/-- The fetch's own advance (40_step.md R101). -/
def State.advance (s : State) : State := s.setPc (s.pc + 2)

/-- `if c: pc <- pc + 2`, the skip of 41_control_flow.md R120. -/
def State.skipIf (s : State) (c : Bool) : State := if c then s.setPc (s.pc + 2) else s

/-- `stack[sp] <- w; sp <- sp + 1` (R123), or none when the stack is full. -/
def State.push (s : State) (w : Word) : Option State :=
  if h : s.sp.val < 16 then
    some { s with stack := s.stack.set s.sp.val w h, sp := ⟨s.sp.val + 1, Nat.succ_lt_succ h⟩ }
  else none

/-- `sp <- sp - 1; stack[sp]` (R121): the popped entry and the state after, or none when the stack is empty. The entry
keeps its stale value (R28). -/
def State.pop (s : State) : Option (Word × State) :=
  if h : 0 < s.sp.val then
    let top := s.sp.val - 1
    some (s.stack[top]'(by have := s.sp.isLt; omega), { s with sp := ⟨top, by have := s.sp.isLt; omega⟩ })
  else none

/-! ### Framebuffer (10_state.md R31) -/

/-- The pixel at column `x`, row `y` of a framebuffer; no pixel is lit outside it. -/
def fbGet (f : Framebuffer) (x y : Nat) : Bool :=
  match f[y]? with
  | some row => row.getLsbD x
  | none => false

/-- A framebuffer with the pixel at column `x`, row `y` inverted. -/
def fbToggle (f : Framebuffer) (x y : Nat) : Framebuffer :=
  if h : y < 32 then f.set y (f[y] ^^^ (1#64 <<< x)) h else f

/-- Every pixel off. -/
def fbBlank : Framebuffer := Vector.replicate 32 0

/-- `fb[x, y]`. -/
def State.pixel (s : State) (x y : Nat) : Bool := fbGet s.fb x y

/-! ### Faults (40_step.md R108, 60_exceptions.md R221 to R224) -/

/-- The codes of R221. -/
def FaultKind.code : FaultKind → Nat
  | .invalidInstruction => 1
  | .stackOverflow => 2
  | .stackUnderflow => 3
  | .memoryBounds => 4
  | .keyIndex => 5

/-- Taking a fault: `pc` is the address the word was fetched from, the status holds the record, nothing else changes (R108,
R224). -/
def State.takeFault (s : State) (kind : FaultKind) (addr : Word) (word : Option Word) (info : Word) : State :=
  { s with pc := addr, status := .faulted { kind := kind, addr := addr, word := word, info := info } }

/-- `raise F(info)` in the execute phase of instruction `i` (00_scope.md R16). On entry `pc = a + 2` (R103) and nothing is
written yet, so the state with `pc` back at `a` is the state before the step. -/
def raise (kind : FaultKind) (i : Instr) (info : Word) (s : State) : Outcome :=
  .next (s.takeFault kind (s.pc - 2) (some (encode i)) info)

/-! ### Tick (45_keys_timers.md R210) -/

/-- One timer's tick: down by one while nonzero. -/
def tickTimer (b : Byte) : Byte := if b = 0 then 0 else b - 1

/-- `tick(s)`. -/
def State.tick (s : State) : State := { s with dt := tickTimer s.dt, st := tickTimer s.st }

/-- What follows a step taken while running, by `TIMER_COUPLING` (40_step.md R111). -/
def State.coupledTick (s : State) : State :=
  match s.cfg.timerCoupling with
  | .independent => s
  | .perStep => s.tick

/-- An outcome with its next state changed. -/
def mapNext (f : State → State) : Outcome → Outcome
  | .next s => .next (f s)
  | .fault r => .fault r
  | .refused r => .refused r

/-! ### The step cycle (40_step.md) -/

/-- The fetch of R101: the word at `pc`, or the first address above 0xFFF it reads. -/
def fetch (s : State) : Except Word Word :=
  match memRead s s.pc.toNat with
  | none => .error s.pc
  | some hi =>
    match memRead s (s.pc.toNat + 1) with
    | none => .error (s.pc + 1)
    | some lo => .ok (wordOfBytes hi lo)

/-- Fetch, decode and execute (R110), for an execute phase `ex`; the state is running. -/
def cycle (ex : Instr → State → Outcome) (s : State) : Outcome :=
  match fetch s with
  | .error e => .next (s.takeFault .memoryBounds s.pc none e)
  | .ok w =>
    match decodeWord s.cfg.strict59 w with
    | none => .next (s.takeFault .invalidInstruction s.pc (some w) w)
    | some i => ex i s.advance

/-- The `Step` event for an execute phase `ex` (R100, R111): nothing in the faulted status (60_exceptions.md R225). -/
def stepBy (ex : Instr → State → Outcome) (s : State) : Outcome :=
  match s.status with
  | .faulted _ => .next s
  | .running => mapNext State.coupledTick (cycle ex s)

end Sys2Proof.Machine
end

