-- ==== Sys2Proof/Machine/Flags.lean ====
section
/-! DEFINITION. The arithmetic of 42_alu.md R139 and every flag computation: VF is the machine's only flag (10_state.md
R23), written with 0 or 1 by 8XY4, 8XY5, 8XY6, 8XY7, 8XYE and DXYN after their other writes (30_encoding.md R78). -/

namespace Sys2Proof.Machine

/-- A flag as VF holds it. -/
def flagByte (c : Bool) : Byte := if c then 1 else 0

/-- `(a + b) mod 256`. -/
def sumByte (a b : Byte) : Byte := BitVec.ofNat 8 (a.toNat + b.toNat)

/-- R146: the unreduced sum exceeds 255. -/
def carryOut (a b : Byte) : Bool := decide (a.toNat + b.toNat > 255)

/-- `(a - b) mod 256`, the non-negative remainder (R12). -/
def diffByte (a b : Byte) : Byte := BitVec.ofInt 8 ((a.toNat : Int) - (b.toNat : Int))

/-- R147, R149: `a >= b`, no borrow. -/
def noBorrow (a b : Byte) : Bool := decide (a.toNat ≥ b.toNat)

/-- `a div 2`, a logical shift (R148). -/
def halfByte (a : Byte) : Byte := BitVec.ofNat 8 (a.toNat / 2)

/-- R148: bit 0, shifted out to the right. -/
def lowBitOut (a : Byte) : Bool := a.getLsbD 0

/-- `(a * 2) mod 256` (R150). -/
def doubleByte (a : Byte) : Byte := BitVec.ofNat 8 (a.toNat * 2)

/-- R150: bit 7, shifted out to the left. -/
def highBitOut (a : Byte) : Bool := a.getLsbD 7

/-- A flag write (00_scope.md R19): `VF <- c`. -/
def State.setFlag (s : State) (c : Bool) : State := s.setReg flagReg (flagByte c)

/-- The write order of 40_step.md R106: V[X] first, VF last, so that with X = 0xF VF holds the flag. -/
def State.setRegFlag (s : State) (x : Reg) (b : Byte) (c : Bool) : State := (s.setReg x b).setFlag c

end Sys2Proof.Machine
end

