-- ==== Sys2Proof/Machine/Operands.lean ====
section
/-! DEFINITION. The operand forms of the machine (30_encoding.md R73): a register, an immediate byte, a 12-bit address,
the register range V0..VX, the addresses `I + k` (43_index_memory.md R169), the glyph address (R172), sprite rows and
coordinates (44_display.md R191), and a key number (45_keys_timers.md R206). -/

namespace Sys2Proof.Machine

/-- The registers V0 to VX, ascending (R174, R175). -/
def regsUpTo (x : Reg) : List Reg := allRegs.filter (fun r => r ≤ x)

/-- `I` as the base of a data access. -/
def State.base (s : State) : Nat := s.i.toNat

/-- `V[r] <- mem[base + r]` for each register of the list, in its order (R175). -/
def State.loadRegs (s : State) (base : Nat) : List Reg → State
  | [] => s
  | r :: rs => State.loadRegs (s.setReg r (s.byteAt (base + r.val))) base rs

/-- The decimal digits of R173, hundreds first. -/
def bcdDigits (b : Byte) : List Byte :=
  [BitVec.ofNat 8 (b.toNat / 100), BitVec.ofNat 8 (b.toNat / 10 % 10), BitVec.ofNat 8 (b.toNat % 10)]

/-- `FONT_BASE + vx * 5`, unmasked (R172). -/
def glyphAddress (c : Config) (b : Byte) : Word := BitVec.ofNat 16 (c.fontBase.toNat + b.toNat * 5)

/-- The key a register's value names, or none when it exceeds 0xF (R206). -/
def keyNumber (b : Byte) : Option Reg := if h : b.toNat < 16 then some ⟨b.toNat, h⟩ else none

/-- `key[k]`. -/
def State.pressed (s : State) (k : Reg) : Bool := s.key[k]

/-- `min { k | key[k] = 1 }`, or none when no key is pressed (R203). -/
def State.lowestKey (s : State) : Option Reg := allRegs.find? (fun k => s.pressed k)

/-- The framebuffer and the collision flag while a sprite is drawn. -/
abbrev Canvas := Framebuffer × Bool

/-- One set sprite bit at a pixel (R191): collision if it was lit, and XOR with 1. -/
def drawPixel (cv : Canvas) (px py : Nat) : Canvas := (fbToggle cv.1 px py, cv.2 || fbGet cv.1 px py)

/-- Columns `col`, `col + 1`, … of a sprite row, `count` of them; bit 7 is the leftmost (R194), x wraps (R193). -/
def drawRow (b : Byte) (x0 py : Nat) : (col count : Nat) → Canvas → Canvas
  | _, 0, cv => cv
  | col, count + 1, cv =>
    drawRow b x0 py (col + 1) count
      (if b.getLsbD (7 - col) then drawPixel cv ((x0 + col) % fbWidth) py else cv)

/-- Rows `row`, `row + 1`, … of a sprite, `count` of them, the first byte at the top (R195), y wraps (R193). -/
def drawRows (s : State) (x0 y0 : Nat) : (row count : Nat) → Canvas → Canvas
  | _, 0, cv => cv
  | row, count + 1, cv =>
    drawRows s x0 y0 (row + 1) count (drawRow (s.byteAt (s.base + row)) x0 ((y0 + row) % fbHeight) 0 8 cv)

end Sys2Proof.Machine
end

