-- ==== Sys2Proof/Machine/Alu.lean ====
section
/-! DEFINITION. Register and arithmetic operations (42_alu.md): 6XNN, 7XNN, 8XY0 to 8XYE, CXNN. Operands are read before
any write (40_step.md R105). -/

namespace Sys2Proof.Machine

/-- 6XNN (R140). -/
def execLdImm (x : Reg) (nn : Byte) (s : State) : Outcome := .next (s.setReg x nn)

/-- 7XNN (R141): no flag. -/
def execAddImm (x : Reg) (nn : Byte) (s : State) : Outcome := .next (s.setReg x (sumByte (s.reg x) nn))

/-- 8XY0 (R142). -/
def execMov (x y : Reg) (s : State) : Outcome := .next (s.setReg x (s.reg y))

/-- 8XY1 (R143): VF is not reset. -/
def execOr (x y : Reg) (s : State) : Outcome := .next (s.setReg x (s.reg x ||| s.reg y))

/-- 8XY2 (R144): VF is not reset. -/
def execAnd (x y : Reg) (s : State) : Outcome := .next (s.setReg x (s.reg x &&& s.reg y))

/-- 8XY3 (R145): VF is not reset. -/
def execXor (x y : Reg) (s : State) : Outcome := .next (s.setReg x (s.reg x ^^^ s.reg y))

/-- 8XY4 (R146). -/
def execAdd (x y : Reg) (s : State) : Outcome :=
  .next (s.setRegFlag x (sumByte (s.reg x) (s.reg y)) (carryOut (s.reg x) (s.reg y)))

/-- 8XY5 (R147). -/
def execSub (x y : Reg) (s : State) : Outcome :=
  .next (s.setRegFlag x (diffByte (s.reg x) (s.reg y)) (noBorrow (s.reg x) (s.reg y)))

/-- 8XY6 (R148): V[Y] is not read. -/
def execShr (x _y : Reg) (s : State) : Outcome :=
  .next (s.setRegFlag x (halfByte (s.reg x)) (lowBitOut (s.reg x)))

/-- 8XY7 (R149). -/
def execSubn (x y : Reg) (s : State) : Outcome :=
  .next (s.setRegFlag x (diffByte (s.reg y) (s.reg x)) (noBorrow (s.reg y) (s.reg x)))

/-- 8XYE (R150): V[Y] is not read. -/
def execShl (x _y : Reg) (s : State) : Outcome :=
  .next (s.setRegFlag x (doubleByte (s.reg x)) (highBitOut (s.reg x)))

/-- CXNN for the random byte `r` of the step (R151). -/
def execRndByte (r : Byte) (x : Reg) (nn : Byte) (s : State) : Outcome := .next ((s.setReg x (r &&& nn)).drawn)

/-- CXNN (R151): the random byte is the free value at the state's draw counter (notes/assumptions/1.md). -/
def execRnd (x : Reg) (nn : Byte) (s : State) : Outcome := execRndByte (Config.randomByte s.draws) x nn s

end Sys2Proof.Machine
end

