-- ==== Sys2Proof/Machine/Control.lean ====
section
/-! DEFINITION. Control transfer (41_control_flow.md): 00EE, 1NNN, 2NNN, 3XNN, 4XNN, 5XY0, 9XY0, BNNN. On entry
`pc = a + 2` (40_step.md R103). -/

namespace Sys2Proof.Machine

/-- 00EE (R121). -/
def execRet (s : State) : Outcome :=
  match s.pop with
  | none => raise .stackUnderflow .ret (BitVec.ofNat 16 s.sp.val) s
  | some (w, t) => .next (t.setPc w)

/-- 1NNN (R122). -/
def execJp (nnn : Addr12) (s : State) : Outcome := .next (s.setPc (zextAddr nnn))

/-- 2NNN (R123). -/
def execCall (nnn : Addr12) (s : State) : Outcome :=
  match s.push s.pc with
  | none => raise .stackOverflow (.call nnn) (BitVec.ofNat 16 s.sp.val) s
  | some t => .next (t.setPc (zextAddr nnn))

/-- 3XNN (R124). -/
def execSeImm (x : Reg) (nn : Byte) (s : State) : Outcome := .next (s.skipIf (s.reg x == nn))

/-- 4XNN (R125). -/
def execSneImm (x : Reg) (nn : Byte) (s : State) : Outcome := .next (s.skipIf (s.reg x != nn))

/-- 5XY0 (R126). -/
def execSeReg (x y : Reg) (s : State) : Outcome := .next (s.skipIf (s.reg x == s.reg y))

/-- 9XY0 (R127). -/
def execSneReg (x y : Reg) (s : State) : Outcome := .next (s.skipIf (s.reg x != s.reg y))

/-- BNNN (R128): V0 always, and the sum kept in 16 bits. -/
def execJpV0 (nnn : Addr12) (s : State) : Outcome := .next (s.setPc (zextByte (s.reg 0) + zextAddr nnn))

end Sys2Proof.Machine
end

