-- ==== Sys2Proof/Machine/Display.lean ====
section
/-! DEFINITION. Framebuffer operations (44_display.md): 00E0, DXYN. -/

namespace Sys2Proof.Machine

/-- 00E0 (R190). -/
def execCls (s : State) : Outcome := .next (s.setFb fbBlank)

/-- DXYN (R191): coordinates from V[X] and V[Y] before VF is written, `n` bytes from `I` on, VF last. -/
def execDrw (x y : Reg) (n : Nat) (s : State) : Outcome :=
  match firstOutOfRange s.i n with
  | some e => raise .memoryBounds (.drw x y n) e s
  | none =>
    let cv := drawRows s ((s.reg x).toNat % fbWidth) ((s.reg y).toNat % fbHeight) 0 n (s.fb, false)
    .next ((s.setFb cv.1).setFlag cv.2)

end Sys2Proof.Machine
end

