-- ==== Sys2Proof/Machine/Index.lean ====
section
/-! DEFINITION. Index register and memory operations (43_index_memory.md): ANNN, FX1E, FX29, FX33, FX55, FX65. The bounds
check of R169 comes before any write. -/

namespace Sys2Proof.Machine

/-- ANNN (R170). -/
def execLdI (nnn : Addr12) (s : State) : Outcome := .next (s.setI (zextAddr nnn))

/-- FX1E (R171): modulo 2^16, no flag. -/
def execAddIX (x : Reg) (s : State) : Outcome := .next (s.setI (s.i + zextByte (s.reg x)))

/-- FX29 (R172). -/
def execLdFX (x : Reg) (s : State) : Outcome := .next (s.setI (glyphAddress s.cfg (s.reg x)))

/-- FX33 (R173). -/
def execBcd (x : Reg) (s : State) : Outcome :=
  match firstOutOfRange s.i 3 with
  | some e => raise .memoryBounds (.bcd x) e s
  | none => .next (s.writeBytes s.base (bcdDigits (s.reg x)))

/-- FX55 (R174): X + 1 bytes, `I` unchanged. -/
def execStore (x : Reg) (s : State) : Outcome :=
  match firstOutOfRange s.i (x.val + 1) with
  | some e => raise .memoryBounds (.store x) e s
  | none => .next (s.writeBytes s.base ((regsUpTo x).map s.reg))

/-- FX65 (R175): X + 1 bytes, `I` unchanged. -/
def execLoad (x : Reg) (s : State) : Outcome :=
  match firstOutOfRange s.i (x.val + 1) with
  | some e => raise .memoryBounds (.load x) e s
  | none => .next (s.loadRegs s.base (regsUpTo x))

end Sys2Proof.Machine
end

