-- ==== Sys2Proof/Machine/KeysTimers.lean ====
section
/-! DEFINITION. Key and timer operations (45_keys_timers.md): EX9E, EXA1, FX07, FX0A, FX15, FX18. -/

namespace Sys2Proof.Machine

/-- EX9E (R200). -/
def execSkp (x : Reg) (s : State) : Outcome :=
  match keyNumber (s.reg x) with
  | none => raise .keyIndex (.skp x) (zextByte (s.reg x)) s
  | some k => .next (s.skipIf (s.pressed k))

/-- EXA1 (R201). -/
def execSknp (x : Reg) (s : State) : Outcome :=
  match keyNumber (s.reg x) with
  | none => raise .keyIndex (.sknp x) (zextByte (s.reg x)) s
  | some k => .next (s.skipIf (!s.pressed k))

/-- FX07 (R202). -/
def execLdXDt (x : Reg) (s : State) : Outcome := .next (s.setReg x s.dt)

/-- FX0A (R203): with no key pressed only `pc` moves, back to the word itself. -/
def execLdXK (x : Reg) (s : State) : Outcome :=
  match s.lowestKey with
  | none => .next (s.setPc (s.pc - 2))
  | some k => .next (s.setReg x (BitVec.ofNat 8 k.val))

/-- FX15 (R204). -/
def execLdDtX (x : Reg) (s : State) : Outcome := .next (s.setDt (s.reg x))

/-- FX18 (R205). -/
def execLdStX (x : Reg) (s : State) : Outcome := .next (s.setSt (s.reg x))

end Sys2Proof.Machine
end

