-- ==== Sys2Proof/Machine/Step.lean ====
section
/-! DEFINITION. One `Step` event (40_step.md R100, R110, R111) at the free random byte, and the placing of a word where
the next step fetches it. -/

namespace Sys2Proof.Machine

/-- One fetch-decode-execute cycle; nothing in the faulted status. -/
def step (s : State) : Host.Outcome State Fault Refusal := stepBy exec s

/-- `s` with the word `w` (numbered as the opcode table numbers it) stored at `pc`, high byte first (20_memory.md R55). It
stands for a program load from outside (notes/assumptions/3.md). -/
def State.withFetchWord (s : State) (nbits w : Nat) : State :=
  let word : Word := BitVec.ofNat 16 (w % 2 ^ nbits)
  s.writeBytes s.pc.toNat [highByte word, lowByte word]

end Sys2Proof.Machine
end

