-- ==== Sys2Proof/Machine/Events.lean ====
section
/-! DEFINITION. The events the core is driven by and its level outputs (00_scope.md R10, R11): `Reset`, `Load`, `Step(r)`
for every random byte, `Tick`, `SetKey`, `ReadPixel`; `Tone` and `Status`. A run is any list of events in the host's
order, each applied completely (R11). -/

namespace Sys2Proof.Machine

/-- The events of R10. Arguments out of range have no meaning (93_implementation_defined.md U22) and cannot be written. -/
inductive Event where
  | reset
  | load (image : List Byte)
  | step (r : Byte)
  | tick
  | setKey (k : Reg) (pressed : Bool)
  | readPixel (x : Fin 64) (y : Fin 32)
deriving DecidableEq, Repr

/-- What an event answers its caller. -/
inductive Answer where
  | done
  | loadOk
  /-- R222: the image is too long; not a fault of the core. -/
  | loadFault
  | pixel (lit : Bool)
deriving DecidableEq, Repr

/-- `Reset` (70_reset_and_hazards.md R250), accepted in any status. The parameters stay, and the random bytes go on from
where they were: neither is state of the spec (R39). -/
def State.resetEvent (s : State) : State := { State.reset with cfg := s.cfg, draws := s.draws }

/-- `Load(image)` (R254): bytes from 0x200 on, nothing else; an image over 3584 bytes changes nothing. -/
def State.loadImage (s : State) (image : List Byte) : State × Answer :=
  if image.length > maxImage then (s, .loadFault) else (s.writeBytes loadBase image, .loadOk)

/-- The execute phase with the random byte `r` of the `Step(r)` event (R100: only CXNN reads it). -/
def execWith (r : Byte) (i : Instr) (s : State) : Outcome :=
  match i with
  | .rnd x nn => execRndByte r x nn s
  | other => exec other s

/-- `Step(r)` (40_step.md R100). -/
def stepWith (r : Byte) (s : State) : Outcome := stepBy (execWith r) s

/-- `ReadPixel(x, y)` (44_display.md R196). -/
def readPixel (s : State) (x : Fin 64) (y : Fin 32) : Bool := s.pixel x.val y.val

/-- The packed form of the framebuffer port: the 2048 pixels in flat order `y * 64 + x` (R196, D11). -/
def packedFramebuffer (s : State) : Vector Bool 2048 := Vector.ofFn (fun k => s.pixel (k.val % 64) (k.val / 64))

/-- The `Tone` output (45_keys_timers.md R211). -/
def tone (s : State) : Bool := s.st != 0

/-- The `Status` output (60_exceptions.md R220). -/
def statusOutput (s : State) : Status := s.status

/-- One event with its answer. -/
def applyEvent (e : Event) (s : State) : Host.Outcome (State × Answer) Fault Refusal :=
  match e with
  | .reset => .next (s.resetEvent, .done)
  | .load image => .next (s.loadImage image)
  | .step r =>
    match stepWith r s with
    | .next t => .next (t, .done)
    | .fault f => .fault f
    | .refused f => .refused f
  | .tick => .next (s.tick, .done)
  | .setKey k b => .next (s.setKey k b, .done)
  | .readPixel x y => .next (s, .pixel (readPixel s x y))

/-- A run: events one at a time, in the host's order (R11). -/
def runEvents : List Event → State → Outcome
  | [], s => .next s
  | e :: es, s =>
    match applyEvent e s with
    | .next (t, _) => runEvents es t
    | .fault f => .fault f
    | .refused f => .refused f

end Sys2Proof.Machine
end

