-- ==== Sys2Proof/Safety.lean ====
section
/-! DEFINITION. The terms claims are stated in: what may change (frames), the entry into a fault, the invariant every event
keeps, waiting for a key, and the end of a run. -/

namespace Sys2Proof.Machine

/-- A part of the state that an instruction may change. -/
inductive Part where
  /-- One general register. -/
  | reg (r : Reg)
  | index
  | pc
  /-- `sp` and the stack entries. -/
  | stack
  | delay
  | sound
  | display
  | keys
  /-- `len` bytes of memory from `base` on. -/
  | memory (base len : Nat)
  | status
  /-- The model's own counter of random bytes drawn. -/
  | draws
deriving DecidableEq, Repr

/-- `t` is `s` but for the parts listed. The parameters of the machine never change. -/
structure Frame (may : List Part) (s t : State) : Prop where
  regs : ∀ r, Part.reg r ∉ may → t.reg r = s.reg r
  index : Part.index ∉ may → t.i = s.i
  pc : Part.pc ∉ may → t.pc = s.pc
  stack : Part.stack ∉ may → t.sp = s.sp ∧ t.stack = s.stack
  delay : Part.delay ∉ may → t.dt = s.dt
  sound : Part.sound ∉ may → t.st = s.st
  display : Part.display ∉ may → t.fb = s.fb
  keys : Part.keys ∉ may → t.key = s.key
  memory : ∀ a, (∀ base len, Part.memory base len ∈ may → a < base ∨ base + len ≤ a) → t.byteAt a = s.byteAt a
  status : Part.status ∉ may → t.status = s.status
  draws : Part.draws ∉ may → t.draws = s.draws
  cfg : t.cfg = s.cfg

/-- The parts a list of registers stands for. -/
def regParts (rs : List Reg) : List Part := rs.map Part.reg

/-- Taking a fault in the execute phase (40_step.md R108): `s` is the state the operation runs in, with `pc = a + 2`; in `t`
the status holds the record, `pc` is back at `a`, and nothing else is different. -/
structure FaultEntry (kind : FaultKind) (word : Word) (info : Nat) (s t : State) : Prop where
  status : t.status = .faulted ⟨kind, s.pc - 2, some word, BitVec.ofNat 16 info⟩
  pc : t.pc = s.pc - 2
  rest : Frame [.pc, .status] s t

/-- The parts an operation writes when it completes (10_state.md R22, R26; 20_memory.md R57): registers, `pc`, the stack, the
timers, the framebuffer, memory. The counter of random bytes is the model's own. -/
def partsWritten (s : State) : Instr → List Part
  | .cls => [.display]
  | .ret | .call _ => [.stack, .pc]
  | .jp _ | .jpV0 _ | .seImm _ _ | .sneImm _ _ | .seReg _ _ | .sneReg _ _ | .skp _ | .sknp _ => [.pc]
  | .ldImm x _ | .addImm x _ | .mov x _ | .or x _ | .and x _ | .xor x _ | .ldXDt x => [.reg x]
  | .add x _ | .sub x _ | .shr x _ | .subn x _ | .shl x _ => [.reg x, .reg flagReg]
  | .rnd x _ => [.reg x, .draws]
  | .drw _ _ _ => [.display, .reg flagReg]
  | .ldXK x => [.reg x, .pc]
  | .ldDtX _ => [.delay]
  | .ldStX _ => [.sound]
  | .ldI _ | .addIX _ | .ldFX _ => [.index]
  | .bcd _ => [.memory s.i.toNat 3]
  | .store x => [.memory s.i.toNat (x.val + 1)]
  | .load x => regParts (regsUpTo x)

/-- The one fault condition an operation has of its own, with the `info` it records (60_exceptions.md R221, R226). -/
def OwnFault (s : State) (kind : FaultKind) (info : Nat) : Instr → Prop
  | .call _ => kind = .stackOverflow ∧ s.sp.val = 16 ∧ info = 16
  | .ret => kind = .stackUnderflow ∧ s.sp.val = 0 ∧ info = 0
  | .drw _ _ n => kind = .memoryBounds ∧ 0 < n ∧ 0x1000 < s.i.toNat + n ∧ info = max s.i.toNat 0x1000
  | .bcd _ => kind = .memoryBounds ∧ 0x1000 < s.i.toNat + 3 ∧ info = max s.i.toNat 0x1000
  | .store x | .load x => kind = .memoryBounds ∧ 0x1000 < s.i.toNat + (x.val + 1) ∧ info = max s.i.toNat 0x1000
  | .skp x | .sknp x => kind = .keyIndex ∧ 0xF < (s.reg x).toNat ∧ info = (s.reg x).toNat
  | .cls | .jp _ | .seImm _ _ | .sneImm _ _ | .seReg _ _ | .ldImm _ _ | .addImm _ _ | .mov _ _ | .or _ _ | .and _ _
  | .xor _ _ | .add _ _ | .sub _ _ | .shr _ _ | .subn _ _ | .shl _ _ | .sneReg _ _ | .ldI _ | .jpV0 _ | .rnd _ _
  | .ldXDt _ | .ldXK _ | .ldDtX _ | .ldStX _ | .addIX _ | .ldFX _ => False

/-- The encoding of an instruction: its word selects the row of R81 with this match and mask, and the word decodes to the
instruction whatever `STRICT_5_9` is. -/
def Encoded (i : Instr) (mtch mask : Word) : Prop :=
  encode i &&& mask = mtch ∧ ∀ strict, decodeWord strict (encode i) = some i

/-- The word at `pc`, the byte at the lower address high (20_memory.md R55), for a `pc` whose word lies in memory. -/
def State.wordAtPc (s : State) : Word := wordOfBytes (s.byteAt s.pc.toNat) (s.byteAt (s.pc.toNat + 1))

/-- The fetch does not fault (40_step.md R101). -/
abbrev State.fetchable (s : State) : Prop := s.pc.toNat ≤ 0xFFE

/-- The decode of the word at `pc`. -/
def State.instrAtPc (s : State) : Option Instr := decodeWord s.cfg.strict59 s.wordAtPc

/-- When a step taken while running faults, and with what record: the fetch first, then the decode, then the operation
(60_exceptions.md R226). -/
def FaultCause (s : State) (kind : FaultKind) (word : Option Word) (info : Word) : Prop :=
  (0xFFF ≤ s.pc.toNat ∧ kind = .memoryBounds ∧ word = none ∧ info.toNat = max s.pc.toNat 0x1000) ∨
  (s.fetchable ∧ word = some s.wordAtPc ∧
    ((s.instrAtPc = none ∧ kind = .invalidInstruction ∧ info = s.wordAtPc) ∨
      ∃ i, s.instrAtPc = some i ∧ OwnFault s kind info.toNat i))

/-- The same machine with the other value of `TIMER_COUPLING`. -/
def State.withCoupling (s : State) (c : TimerCoupling) : State := { s with cfg := { s.cfg with timerCoupling := c } }

/-- Whether column `px`, row `py` is under a set bit of the sprite of `n` rows at `I` drawn with its first column at `x0` and
first row at `y0`: the column and row within the sprite are the distances from the start, modulo the display's width and
height (44_display.md R191, R193 to R195). -/
def State.spriteBit (s : State) (x0 y0 n px py : Nat) : Bool :=
  let col := (px + 64 - x0 % 64) % 64
  let row := (py + 32 - y0 % 32) % 32
  decide (col < 8) && decide (row < n) && (s.byteAt (s.i.toNat + row)).getLsbD (7 - col)

/-- What holds of every state a run reaches: memory is in canonical form, `pc` is at most 0x10FE (10_state.md R27), every
return address is at most 0x1000 (41_control_flow.md R121), and a fault record's address is `pc` (10_state.md R34). -/
structure StateInv (s : State) : Prop where
  memory : Memory.wf s.cfg s.mem = true
  pc : s.pc.toNat ≤ 0x10FE
  stack : ∀ j : Fin 16, (s.stack[j]).toNat ≤ 0x1000
  record : ∀ rec, s.status = .faulted rec → rec.addr = s.pc

/-- The events of a host that neither resets, loads nor presses a key. -/
def Event.leavesKeysUp : Event → Prop
  | .step _ | .tick | .readPixel _ _ => True
  | .setKey _ b => b = false
  | .reset | .load _ => False

/-- A safe state: the core is running, no fault has halted it (60_exceptions.md R223). -/
def Safe (s : State) : Prop := s.status = .running

/-- The core is awaiting a key (10_state.md R37): running, the word at `pc` decodes as FX0A, no key is pressed. -/
def AwaitingKey (s : State) : Prop :=
  s.status = .running ∧ s.fetchable ∧ (∃ x, s.instrAtPc = some (.ldXK x)) ∧ ∀ k, s.pressed k = false

/-- The end of a run (40_step.md R112): faulted, or the word at `pc` is a jump to itself. -/
def EndOfRun (s : State) : Prop :=
  s.status ≠ .running ∨
    (s.fetchable ∧ ∃ nnn, s.instrAtPc = some (.jp nnn) ∧ zextAddr nnn = s.pc)

end Sys2Proof.Machine
end

