-- ==== Sys2Proof/Certificates/Slice0/Obligations.lean ====
section
/-! DEFINITION. The statements of this model. Each says in its docstring which rule of the spec it formalises. `exec i s` is
the execute phase of 40_step.md R110: in `s` the fetch has already advanced `pc`, so `s.pc = a + 2`. -/

open Sys2Proof Sys2Proof.Machine

/-! ### Encoding (30_encoding.md) -/

/-- Words of 95_test_vectors.md section 2.1, written out there from the fields of R71. -/
def Obligations.SampleWordsDecode : Prop :=
  decodeTableWord 16 0x00E0 = some .cls ∧ decodeTableWord 16 0x00EE = some .ret ∧
  decodeTableWord 16 0x5120 = some (.seReg 1 2) ∧ decodeTableWord 16 0x5121 = none ∧
  decodeTableWord 16 0x812E = some (.shl 1 2) ∧ decodeTableWord 16 0x9AB0 = some (.sneReg 0xA 0xB) ∧
  decodeTableWord 16 0xD3A5 = some (.drw 3 0xA 5) ∧ decodeTableWord 16 0xE19E = some (.skp 1) ∧
  decodeTableWord 16 0xFF65 = some (.load 0xF) ∧ decodeTableWord 16 0x01E0 = none

/-- R74, R83: decoding an encoded well-formed instruction gives it back, at every value of every operand, under both values of
`STRICT_5_9`, whatever bytes follow. -/
def Obligations.DecodeOfEncodeIsTheInstruction : Prop :=
  ∀ (strict : Bool) (i : Instr) (rest : List Byte), i.WellFormed → decodeBytes strict (encodeBytes i ++ rest) = .ok (i, rest)

/-- R74, R83: what decodes is well formed, and its word is the one decoded, but for a word of group 5 or 9 with
`STRICT_5_9 = false`, which decodes to the 5XY0 or 9XY0 whose word is that word with bits 3..0 cleared. -/
def Obligations.EncodeOfDecodeIsTheWord : Prop :=
  ∀ (strict : Bool) (w : Word) (i : Instr), decodeWord strict w = some i →
    i.WellFormed ∧ (encode i = w ∨ (strict = false ∧ encode i = w &&& 0xFFF0 ∧
      ((fieldG w = 5 ∧ ∃ x y, i = .seReg x y) ∨ (fieldG w = 9 ∧ ∃ x y, i = .sneReg x y))))

/-- Group 0 decodes the whole word, and every other word of the group faults (30_encoding.md R75, the spec's decisions D16 and
D5). -/
def Obligations.GroupZeroDecodesTheWholeWord : Prop :=
  (∀ (strict : Bool) (w : Word), w.toNat ≤ 0x0FFF →
    decodeWord strict w = if w = 0x00E0 then some .cls else if w = 0x00EE then some .ret else none) ∧
  (∀ s : State, s.status = .running → s.fetchable → s.wordAtPc.toNat ≤ 0x0FFF → s.wordAtPc ≠ 0x00E0 →
    s.wordAtPc ≠ 0x00EE →
    ∃ t, step s = .next t ∧ t.status = .faulted ⟨.invalidInstruction, s.pc, some s.wordAtPc, s.wordAtPc⟩)

/-- With `STRICT_5_9 = true`, the default, a word of group 5 or 9 with N != 0 faults; with `false` it executes as 5XY0 or 9XY0
(30_encoding.md R76, the spec's decisions D16 and D5). -/
def Obligations.GroupsFiveAndNineFollowTheParameter : Prop :=
  Config.default.strict59 = true ∧
  (∀ (strict : Bool) (x y : Reg) (n : Nat), n < 16 →
    decodeWord strict (encodeXYN 5 x y n) = (if strict = true ∧ n ≠ 0 then none else some (.seReg x y)) ∧
    decodeWord strict (encodeXYN 9 x y n) = (if strict = true ∧ n ≠ 0 then none else some (.sneReg x y))) ∧
  (∀ (s : State) (g : Nat) (x y : Reg) (n : Nat), s.status = .running → s.fetchable → s.cfg.strict59 = true →
    (g = 5 ∨ g = 9) → n < 16 → n ≠ 0 → s.wordAtPc = encodeXYN g x y n →
    ∃ t, step s = .next t ∧ t.status = .faulted ⟨.invalidInstruction, s.pc, some s.wordAtPc, s.wordAtPc⟩)

/-- R77: which words of groups 8, E and F are operations, and that V[Y] of 8XY6 and 8XYE is not used. -/
def Obligations.SubOperationsOfGroupsEightEAndF : Prop :=
  (∀ (strict : Bool) (x y : Reg) (n : Nat), n < 16 →
    ((decodeWord strict (encodeXYN 8 x y n)).isSome = true ↔ n ∈ [0, 1, 2, 3, 4, 5, 6, 7, 0xE])) ∧
  (∀ (strict : Bool) (x : Reg) (nn : Byte),
    ((decodeWord strict (encodeXNN 0xE x nn)).isSome = true ↔ nn ∈ [0x9E, 0xA1])) ∧
  (∀ (strict : Bool) (x : Reg) (nn : Byte),
    ((decodeWord strict (encodeXNN 0xF x nn)).isSome = true ↔
      nn ∈ [0x07, 0x0A, 0x15, 0x18, 0x1E, 0x29, 0x33, 0x55, 0x65])) ∧
  (∀ (x y y' : Reg) (s : State), exec (.shr x y) s = exec (.shr x y') s ∧ exec (.shl x y) s = exec (.shl x y') s)

/-- R81: a word is an instruction exactly when it selects a row, an instruction's word selects the row of its operation, and
no word selects two of the 34 rows; with `STRICT_5_9 = false` the masks of 5XY0 and 9XY0 are 0xF000. -/
def Obligations.OpcodeMapDecidesDecoding : Prop :=
  opcodeMap.length = 34 ∧
  (∀ w : Word, (decodeWord true w).isSome = true ↔ ∃ row ∈ opcodeMap, selects w row = true) ∧
  (∀ (w : Word) (i : Instr), decodeWord true w = some i → selects w i.row = true ∧ i.row ∈ opcodeMap) ∧
  opcodeMap.Pairwise (fun row row' => ∀ w : Word, ¬ (selects w row = true ∧ selects w row' = true)) ∧
  (∀ w : Word, (decodeWord false w).isSome = true ↔
    ∃ row ∈ opcodeMap, selects w (row.1, if row.1 = 0x5000 ∨ row.1 = 0x9000 then 0xF000 else row.2) = true)

/-! ### The step (40_step.md) -/

/-- The fetch reads two bytes, high byte first, and advances `pc` by 2 without wrapping; it faults exactly when `pc >= 0xFFF`,
with the first out-of-range address it reads (40_step.md R101, the spec's decision D3). -/
def Obligations.FetchReadsTwoBytesOrFaults : Prop :=
  (∀ s : State, s.pc.toNat ≤ 0xFFE →
    ∃ w, fetch s = .ok w ∧ w.toNat = (s.byteAt s.pc.toNat).toNat * 0x100 + (s.byteAt (s.pc.toNat + 1)).toNat ∧
      s.advance.pc.toNat = s.pc.toNat + 2) ∧
  (∀ s : State, s.status = .running → 0xFFF ≤ s.pc.toNat →
    ∃ t, step s = .next t ∧
      t.status = .faulted ⟨.memoryBounds, s.pc, none, BitVec.ofNat 16 (if s.pc.toNat = 0xFFF then 0x1000 else s.pc.toNat)⟩ ∧
      Frame [.status, .delay, .sound] s t ∧ (s.cfg.timerCoupling = .independent → Frame [.status] s t))

/-- 40_step.md R103, R110, R111 (the spec's decisions D5, D14): when the word at `pc` decodes to `i`, a step is `exec i` at
the state with `pc` past the word, followed by what the timer coupling adds. -/
def Obligations.StepRunsTheDecodedInstruction : Prop :=
  ∀ (s : State) (i : Instr), s.status = .running → s.fetchable → s.instrAtPc = some i →
    step s = mapNext State.coupledTick (exec i s.advance)

/-- A word that matches no case faults, and does not act as a no-op (40_step.md R102); the record it leaves is the spec's
decision D5. -/
def Obligations.InvalidWordFaults : Prop :=
  ∀ s : State, s.status = .running → s.fetchable → s.instrAtPc = none →
    ∃ t, step s = .next t ∧ t.status = .faulted ⟨.invalidInstruction, s.pc, some s.wordAtPc, s.wordAtPc⟩ ∧
      Frame [.status, .delay, .sound] s t ∧ (s.cfg.timerCoupling = .independent → Frame [.status] s t)

/-- Every step ends (40_step.md R104), under the free random byte and under every other. A fault is a next state with the
status faulted: notes/assumptions/5.md. -/
def Obligations.EveryStepEnds : Prop :=
  (∀ s : State, ∃ t, step s = .next t) ∧ ∀ (r : Byte) (s : State), ∃ t, stepWith r s = .next t

/-- 40_step.md R108 (the spec's decision D5): a fault discards every write of the step, keeps `pc`, and leaves the record with
the address and the word, none for a fetch fault; with per-step coupling the tick after the step moves the timers (its
decision D14). -/
def Obligations.FaultsArePrecise : Prop :=
  ∀ (s t : State) (rec : FaultRecord), s.status = .running → step s = .next t → t.status = .faulted rec →
    rec.addr = s.pc ∧ t.pc = s.pc ∧ rec.word = (if s.pc.toNat ≤ 0xFFE then some s.wordAtPc else none) ∧
    Frame [.status, .delay, .sound] s t ∧ (s.cfg.timerCoupling = .independent → Frame [.status] s t)

/-- 60_exceptions.md R221, R226 (the spec's decisions D3, D5, D6, D13): a step taken while running faults exactly on the
conditions of the fault table, the first of them in the order fetch, decode, operation, and records the `info` of the table.
-/
def Obligations.FaultsAreThoseOfTheTable : Prop :=
  (∀ (s : State) (kind : FaultKind) (addr : Word) (word : Option Word) (info : Word), s.status = .running →
    ((∃ t, step s = .next t ∧ t.status = .faulted ⟨kind, addr, word, info⟩) ↔
      addr = s.pc ∧ FaultCause s kind word info)) ∧
  [FaultKind.invalidInstruction, .stackOverflow, .stackUnderflow, .memoryBounds, .keyIndex].map FaultKind.code =
    [1, 2, 3, 4, 5]

/-- 60_exceptions.md R225 (the spec's decisions D5, D23): in the faulted status a step changes nothing, whatever the coupling;
the other events act as usual and leave the record, and `Reset` clears it. -/
def Obligations.FaultedCoreIgnoresSteps : Prop :=
  ∀ (s : State) (rec : FaultRecord), s.status = .faulted rec →
    step s = .next s ∧ (∀ r, stepWith r s = .next s) ∧
    applyEvent .tick s = .next (s.tick, .done) ∧ s.tick.status = .faulted rec ∧
    (∀ k b, applyEvent (.setKey k b) s = .next (s.setKey k b, .done) ∧ (s.setKey k b).status = .faulted rec) ∧
    (∀ x y, applyEvent (.readPixel x y) s = .next (s, .pixel (s.pixel x.val y.val))) ∧
    (∀ image, ∃ t a, applyEvent (.load image) s = .next (t, a) ∧ t.status = .faulted rec ∧
      (image.length ≤ 3584 → t = s.writeBytes 0x200 image)) ∧
    ∃ t, applyEvent .reset s = .next (t, .done) ∧ t.status = .running

/-- 10_state.md R22, R26, 20_memory.md R57 (tables the spec derives): an operation that completes writes only what its row of
the access tables says; otherwise it takes a fault. -/
def Obligations.OperationsWriteOnlyTheirParts : Prop :=
  ∀ (i : Instr) (s t : State), exec i s = .next t →
    Frame (partsWritten s i) s t ∨ ∃ kind info, OwnFault s kind info i ∧ FaultEntry kind (encode i) info s t

/-- R78: 8XY4, 8XY5, 8XY6, 8XY7, 8XYE and DXYN leave 0 or 1 in VF, also when VF is their destination; no other operation
writes VF but as a destination register. -/
def Obligations.OnlyFlagOperationsWriteTheFlag : Prop :=
  ∀ (i : Instr) (s t : State), s.status = .running → exec i s = .next t → t.status = .running →
    match i with
    | .add _ _ | .sub _ _ | .shr _ _ | .subn _ _ | .shl _ _ | .drw _ _ _ => t.reg 0xF = 0 ∨ t.reg 0xF = 1
    | .ldImm x _ | .addImm x _ | .mov x _ | .or x _ | .and x _ | .xor x _ | .rnd x _ | .ldXDt x | .ldXK x | .load x =>
      x ≠ 0xF → t.reg 0xF = s.reg 0xF
    | .cls | .ret | .jp _ | .call _ | .seImm _ _ | .sneImm _ _ | .seReg _ _ | .sneReg _ _ | .ldI _ | .jpV0 _ | .skp _
    | .sknp _ | .ldDtX _ | .ldStX _ | .addIX _ | .ldFX _ | .bcd _ | .store _ => t.reg 0xF = s.reg 0xF

/-- 10_state.md R24, R28, R29, R31, R32, 20_memory.md R57: each part of the state beside the general registers and `pc`
changes in a step only by the operations its rule names; the key matrix and the parameters (the model's own field:
notes/assumptions/2.md) never do. -/
def Obligations.StateChangesOnlyThroughItsOwners : Prop :=
  ∀ s t : State, s.status = .running → step s = .next t →
    t.key = s.key ∧ t.cfg = s.cfg ∧
    (t.i ≠ s.i → ∃ i, s.instrAtPc = some i ∧ ((∃ n, i = .ldI n) ∨ (∃ x, i = .addIX x) ∨ ∃ x, i = .ldFX x)) ∧
    (t.sp ≠ s.sp ∨ t.stack ≠ s.stack → ∃ i, s.instrAtPc = some i ∧ (i = .ret ∨ ∃ n, i = .call n)) ∧
    (t.fb ≠ s.fb → ∃ i, s.instrAtPc = some i ∧ (i = .cls ∨ ∃ x y n, i = .drw x y n)) ∧
    ((∃ a, t.byteAt a ≠ s.byteAt a) → ∃ i, s.instrAtPc = some i ∧ ((∃ x, i = .bcd x) ∨ ∃ x, i = .store x)) ∧
    (s.cfg.timerCoupling = .independent →
      (t.dt ≠ s.dt → ∃ x, s.instrAtPc = some (.ldDtX x)) ∧ (t.st ≠ s.st → ∃ x, s.instrAtPc = some (.ldStX x)))

/-- 40_step.md R100, 42_alu.md R151 (the spec's decision D15; the free value is the model's: notes/assumptions/1.md): the step
is the `Step(r)` event at the free random byte, and no operation but CXNN reads `r`. -/
def Obligations.OnlyRandomOperationReadsTheRandomByte : Prop :=
  (∀ s : State, step s = stepWith (Config.randomByte s.draws) s) ∧
  (∀ (r r' : Byte) (s : State), (∀ x nn, s.instrAtPc ≠ some (.rnd x nn)) → stepWith r s = stepWith r' s)

/-- 40_step.md R111 (the spec's decision D14): with `independent` coupling a step changes `DT` only by FX15 and `ST` only by
FX18; with `per_step` a step taken while running is the step of the independent machine followed by a tick, also when it
faults. -/
def Obligations.PerStepCouplingIsATickAfterTheStep : Prop :=
  (∀ (r : Byte) (s t : State), s.cfg.timerCoupling = .independent → stepWith r s = .next t →
    (t.dt ≠ s.dt → ∃ x, s.instrAtPc = some (.ldDtX x)) ∧ (t.st ≠ s.st → ∃ x, s.instrAtPc = some (.ldStX x))) ∧
  (∀ (r : Byte) (s : State), s.status = .running → s.cfg.timerCoupling = .perStep →
    ∃ t, stepWith r (s.withCoupling .independent) = .next t ∧ stepWith r s = .next (t.tick.withCoupling .perStep))

/-- 40_step.md R112 (the spec's decision D25): from the end of a run no further step changes the state, the timers apart where
a tick follows each step. -/
def Obligations.EndOfRunIsFixed : Prop :=
  ∀ s : State, EndOfRun s →
    ∃ t, step s = .next t ∧ Frame [.delay, .sound] s t ∧ (s.cfg.timerCoupling = .independent → t = s)

/-! ### Control transfer (41_control_flow.md) -/

/-- 00EE pops the return address, the entry keeping its stale value; an empty stack faults (41_control_flow.md R121; the fault
is the spec's decision D6). -/
def Obligations.ReturnPopsOrUnderflows : Prop :=
  Encoded .ret 0x00EE 0xFFFF ∧
  (∀ (s : State) (j : Fin 16), s.sp.val = j.val + 1 →
    ∃ t, exec .ret s = .next t ∧ t.sp.val = j.val ∧ t.pc = s.stack[j] ∧ t.stack = s.stack ∧ Frame [.stack, .pc] s t) ∧
  (∀ s : State, s.sp.val = 0 → ∃ t, exec .ret s = .next t ∧ FaultEntry .stackUnderflow 0x00EE 0 s t)

/-- 2NNN pushes the advanced `pc` and jumps; a full stack faults and is not written (41_control_flow.md R123; the fault is the
spec's decision D6). -/
def Obligations.CallPushesOrOverflows : Prop :=
  ∀ nnn : Addr12, Encoded (.call nnn) 0x2000 0xF000 ∧
    (∀ (s : State) (j : Fin 16), s.sp.val = j.val →
      ∃ t, exec (.call nnn) s = .next t ∧ t.stack[j] = s.pc ∧ (∀ k : Fin 16, k ≠ j → t.stack[k] = s.stack[k]) ∧
        t.sp.val = j.val + 1 ∧ t.pc.toNat = nnn.toNat ∧ Frame [.stack, .pc] s t) ∧
    (∀ s : State, s.sp.val = 16 →
      ∃ t, exec (.call nnn) s = .next t ∧ FaultEntry .stackOverflow (encode (.call nnn)) 16 s t)

/-- 41_control_flow.md R129 (derived there): a return after a call, with the stack as the call left it, goes to the address
after the call. -/
def Obligations.ReturnUndoesCall : Prop :=
  ∀ (nnn : Addr12) (s : State), s.sp.val < 16 →
    ∃ t, exec (.call nnn) s = .next t ∧
      ∀ u : State, u.sp = t.sp → u.stack = t.stack → ∃ w, exec .ret u = .next w ∧ w.pc = s.pc ∧ w.sp = s.sp

/-- R122, R128: 1NNN jumps to NNN; BNNN to V0 + NNN, kept in 16 bits and not reduced modulo 4096. -/
def Obligations.JumpsSetThePc : Prop :=
  ∀ (nnn : Addr12) (s : State),
    (Encoded (.jp nnn) 0x1000 0xF000 ∧
      ∃ t, exec (.jp nnn) s = .next t ∧ t.pc.toNat = nnn.toNat ∧ Frame [.pc] s t) ∧
    (Encoded (.jpV0 nnn) 0xB000 0xF000 ∧
      ∃ t, exec (.jpV0 nnn) s = .next t ∧ t.pc.toNat = (s.reg 0).toNat + nnn.toNat ∧ Frame [.pc] s t)

/-- R124, R125: 3XNN and 4XNN skip one word on the immediate comparison. -/
def Obligations.ImmediateSkips : Prop :=
  ∀ (x : Reg) (nn : Byte) (s : State),
    (Encoded (.seImm x nn) 0x3000 0xF000 ∧
      ∃ t, exec (.seImm x nn) s = .next t ∧ t.pc = (if s.reg x = nn then s.pc + 2 else s.pc) ∧ Frame [.pc] s t) ∧
    (Encoded (.sneImm x nn) 0x4000 0xF000 ∧
      ∃ t, exec (.sneImm x nn) s = .next t ∧ t.pc = (if s.reg x = nn then s.pc else s.pc + 2) ∧ Frame [.pc] s t)

/-- 41_control_flow.md R126, R127 (the spec's decision D16): 5XY0 and 9XY0 skip one word on the comparison of two registers,
and bits 3..0 of their words are decoded or not as `STRICT_5_9` says. -/
def Obligations.RegisterSkips : Prop :=
  ∀ (x y : Reg) (s : State),
    (Encoded (.seReg x y) 0x5000 0xF00F ∧
      (∀ strict n, n < 16 →
        decodeWord strict (encodeXYN 5 x y n) = if strict = true ∧ n ≠ 0 then none else some (.seReg x y)) ∧
      ∃ t, exec (.seReg x y) s = .next t ∧ t.pc = (if s.reg x = s.reg y then s.pc + 2 else s.pc) ∧ Frame [.pc] s t) ∧
    (Encoded (.sneReg x y) 0x9000 0xF00F ∧
      (∀ strict n, n < 16 →
        decodeWord strict (encodeXYN 9 x y n) = if strict = true ∧ n ≠ 0 then none else some (.sneReg x y)) ∧
      ∃ t, exec (.sneReg x y) s = .next t ∧ t.pc = (if s.reg x = s.reg y then s.pc else s.pc + 2) ∧ Frame [.pc] s t)

/-! ### Register and arithmetic operations (42_alu.md) -/

/-- R140, R142: 6XNN and 8XY0 move a value into V[X]; VF is a general register to them. -/
def Obligations.RegisterMoves : Prop :=
  ∀ (x y : Reg) (nn : Byte) (s : State),
    (Encoded (.ldImm x nn) 0x6000 0xF000 ∧ ∃ t, exec (.ldImm x nn) s = .next t ∧ t.reg x = nn ∧ Frame [.reg x] s t) ∧
    (Encoded (.mov x y) 0x8000 0xF00F ∧ ∃ t, exec (.mov x y) s = .next t ∧ t.reg x = s.reg y ∧ Frame [.reg x] s t)

/-- R141: 7XNN adds modulo 256 and sets no flag. -/
def Obligations.AddImmediateWrapsWithoutFlag : Prop :=
  ∀ (x : Reg) (nn : Byte) (s : State), Encoded (.addImm x nn) 0x7000 0xF000 ∧
    ∃ t, exec (.addImm x nn) s = .next t ∧ (t.reg x).toNat = ((s.reg x).toNat + nn.toNat) % 256 ∧ Frame [.reg x] s t

/-- R143, R144, R145: 8XY1, 8XY2 and 8XY3 bit by bit; VF is not reset. -/
def Obligations.LogicalOperations : Prop :=
  ∀ (x y : Reg) (s : State),
    (Encoded (.or x y) 0x8001 0xF00F ∧ ∃ t, exec (.or x y) s = .next t ∧ Frame [.reg x] s t ∧
      ∀ k, (t.reg x).getLsbD k = ((s.reg x).getLsbD k || (s.reg y).getLsbD k)) ∧
    (Encoded (.and x y) 0x8002 0xF00F ∧ ∃ t, exec (.and x y) s = .next t ∧ Frame [.reg x] s t ∧
      ∀ k, (t.reg x).getLsbD k = ((s.reg x).getLsbD k && (s.reg y).getLsbD k)) ∧
    (Encoded (.xor x y) 0x8003 0xF00F ∧ ∃ t, exec (.xor x y) s = .next t ∧ Frame [.reg x] s t ∧
      ∀ k, (t.reg x).getLsbD k = ((s.reg x).getLsbD k != (s.reg y).getLsbD k))

/-- R146: 8XY4, from the values before the step, V[X] first and the carry in VF last. -/
def Obligations.AddReportsTheCarry : Prop :=
  ∀ (x y : Reg) (s : State), Encoded (.add x y) 0x8004 0xF00F ∧
    ∃ t, exec (.add x y) s = .next t ∧
      (x ≠ 0xF → (t.reg x).toNat = ((s.reg x).toNat + (s.reg y).toNat) % 256) ∧
      (t.reg 0xF).toNat = (if (s.reg x).toNat + (s.reg y).toNat > 255 then 1 else 0) ∧ Frame [.reg x, .reg 0xF] s t

/-- R147, R149: 8XY5 and 8XY7, from the values before the step, V[X] first and the absence of a borrow in VF last. -/
def Obligations.SubtractionsReportNoBorrow : Prop :=
  ∀ (x y : Reg) (s : State),
    (Encoded (.sub x y) 0x8005 0xF00F ∧
      ∃ t, exec (.sub x y) s = .next t ∧
        (x ≠ 0xF → ((t.reg x).toNat : Int) = (((s.reg x).toNat : Int) - ((s.reg y).toNat : Int)) % 256) ∧
        (t.reg 0xF).toNat = (if (s.reg x).toNat ≥ (s.reg y).toNat then 1 else 0) ∧ Frame [.reg x, .reg 0xF] s t) ∧
    (Encoded (.subn x y) 0x8007 0xF00F ∧
      ∃ t, exec (.subn x y) s = .next t ∧
        (x ≠ 0xF → ((t.reg x).toNat : Int) = (((s.reg y).toNat : Int) - ((s.reg x).toNat : Int)) % 256) ∧
        (t.reg 0xF).toNat = (if (s.reg y).toNat ≥ (s.reg x).toNat then 1 else 0) ∧ Frame [.reg x, .reg 0xF] s t)

/-- R148, R150: 8XY6 and 8XYE shift V[X] by one, the bit shifted out in VF last; V[Y] is neither read nor written. -/
def Obligations.ShiftsReportTheBitShiftedOut : Prop :=
  ∀ (x y : Reg) (s : State),
    (Encoded (.shr x y) 0x8006 0xF00F ∧
      ∃ t, exec (.shr x y) s = .next t ∧ (x ≠ 0xF → (t.reg x).toNat = (s.reg x).toNat / 2) ∧
        (t.reg 0xF).toNat = (s.reg x).toNat % 2 ∧ Frame [.reg x, .reg 0xF] s t) ∧
    (Encoded (.shl x y) 0x800E 0xF00F ∧
      ∃ t, exec (.shl x y) s = .next t ∧ (x ≠ 0xF → (t.reg x).toNat = (s.reg x).toNat * 2 % 256) ∧
        (t.reg 0xF).toNat = (s.reg x).toNat / 128 ∧ Frame [.reg x, .reg 0xF] s t)

/-- 42_alu.md R151 (the spec's decision D15): CXNN leaves the random byte masked by NN, for the free random byte of a step and
for every `r` of a `Step(r)`; the counter of bytes drawn, the model's own (notes/assumptions/1.md), is one higher. -/
def Obligations.RandomByteIsMasked : Prop :=
  ∀ (x : Reg) (nn : Byte) (s : State), Encoded (.rnd x nn) 0xC000 0xF000 ∧
    (∃ t, exec (.rnd x nn) s = .next t ∧ Frame [.reg x, .draws] s t ∧ t.draws = s.draws + 1 ∧
      ∀ k, (t.reg x).getLsbD k = ((Config.randomByte s.draws).getLsbD k && nn.getLsbD k)) ∧
    (∀ r : Byte, ∃ t, execWith r (.rnd x nn) s = .next t ∧ Frame [.reg x, .draws] s t ∧
      ∀ k, (t.reg x).getLsbD k = (r.getLsbD k && nn.getLsbD k))

/-! ### Index register and memory (43_index_memory.md, 20_memory.md) -/

/-- R170: ANNN loads the zero-extended NNN into `I`. -/
def Obligations.LoadIndexSetsTheIndex : Prop :=
  ∀ (nnn : Addr12) (s : State), Encoded (.ldI nnn) 0xA000 0xF000 ∧
    ∃ t, exec (.ldI nnn) s = .next t ∧ t.i.toNat = nnn.toNat ∧ Frame [.index] s t

/-- 43_index_memory.md R171, R172: FX1E modulo 2^16 without a flag (the spec's decision D7), FX29 unmasked (its decision D9).
-/
def Obligations.IndexArithmetic : Prop :=
  ∀ (x : Reg) (s : State),
    (Encoded (.addIX x) 0xF01E 0xF0FF ∧
      ∃ t, exec (.addIX x) s = .next t ∧ t.i.toNat = (s.i.toNat + (s.reg x).toNat) % 0x10000 ∧ Frame [.index] s t) ∧
    (Encoded (.ldFX x) 0xF029 0xF0FF ∧
      ∃ t, exec (.ldFX x) s = .next t ∧ t.i.toNat = s.cfg.fontBase.toNat + (s.reg x).toNat * 5 ∧ Frame [.index] s t)

/-- 43_index_memory.md R173 (the spec's decisions D3, D8): FX33 stores the three decimal digits at `I`, `I` unchanged; past
0xFFF it faults before any write. -/
def Obligations.DecimalDigitsAreStored : Prop :=
  ∀ (x : Reg) (s : State), Encoded (.bcd x) 0xF033 0xF0FF ∧
    (s.i.toNat + 2 ≤ 0xFFF →
      ∃ t, exec (.bcd x) s = .next t ∧
        (t.byteAt s.i.toNat).toNat = (s.reg x).toNat / 100 ∧
        (t.byteAt (s.i.toNat + 1)).toNat = (s.reg x).toNat / 10 % 10 ∧
        (t.byteAt (s.i.toNat + 2)).toNat = (s.reg x).toNat % 10 ∧ Frame [.memory s.i.toNat 3] s t) ∧
    (s.i.toNat + 2 > 0xFFF →
      ∃ t, exec (.bcd x) s = .next t ∧ FaultEntry .memoryBounds (encode (.bcd x)) (max s.i.toNat 0x1000) s t)

/-- 43_index_memory.md R174 (the spec's decisions D3, D8): FX55 stores V0 to VX at `I`, `I` unchanged; past 0xFFF it faults
before any write. -/
def Obligations.RegistersAreStored : Prop :=
  ∀ (x : Reg) (s : State), Encoded (.store x) 0xF055 0xF0FF ∧
    (s.i.toNat + x.val ≤ 0xFFF →
      ∃ t, exec (.store x) s = .next t ∧ (∀ r : Reg, r ≤ x → t.byteAt (s.i.toNat + r.val) = s.reg r) ∧
        Frame [.memory s.i.toNat (x.val + 1)] s t) ∧
    (s.i.toNat + x.val > 0xFFF →
      ∃ t, exec (.store x) s = .next t ∧ FaultEntry .memoryBounds (encode (.store x)) (max s.i.toNat 0x1000) s t)

/-- 43_index_memory.md R175 (the spec's decisions D3, D8): FX65 loads V0 to VX from `I`, `I` and every other register
unchanged; past 0xFFF it faults before any write. -/
def Obligations.RegistersAreLoaded : Prop :=
  ∀ (x : Reg) (s : State), Encoded (.load x) 0xF065 0xF0FF ∧
    (s.i.toNat + x.val ≤ 0xFFF →
      ∃ t, exec (.load x) s = .next t ∧ (∀ r : Reg, r ≤ x → t.reg r = s.byteAt (s.i.toNat + r.val)) ∧
        (∀ r : Reg, x < r → t.reg r = s.reg r) ∧ Frame (regParts allRegs) s t) ∧
    (s.i.toNat + x.val > 0xFFF →
      ∃ t, exec (.load x) s = .next t ∧ FaultEntry .memoryBounds (encode (.load x)) (max s.i.toNat 0x1000) s t)

/-- 20_memory.md R52, R53 (the spec's decision D3): a byte read is the byte last written there, other addresses are left
alone, and an address above 0xFFF is refused by both; a write keeps the canonical form of memory (the model's own:
notes/assumptions/6.md). -/
def Obligations.MemoryReadsWhatWasWritten : Prop :=
  ∀ (s : State) (a : Nat) (b : Byte),
    (a ≤ 0xFFF → memRead s a = some (s.byteAt a) ∧
      ∃ t, memWrite s a b = some t ∧ memRead t a = some b ∧ (∀ k, k ≠ a → memRead t k = memRead s k) ∧
        Frame [.memory a 1] s t ∧ (Memory.wf s.cfg s.mem = true → Memory.wf t.cfg t.mem = true)) ∧
    (0xFFF < a → memRead s a = none ∧ memWrite s a b = none)

/-- 20_memory.md R64 (the spec's decision D21): a word stored by FX55 is fetched by a later step at its address, without a
fence. -/
def Obligations.StoresAreSeenByTheFetch : Prop :=
  ∀ (x : Reg) (s : State), 1 ≤ x → s.i.toNat + x.val ≤ 0xFFF →
    ∃ t, exec (.store x) s = .next t ∧
      ∀ u : State, (∀ a, u.byteAt a = t.byteAt a) → u.pc = s.i → fetch u = .ok (wordOfBytes (s.reg 0) (s.reg 1))

/-! ### Framebuffer (44_display.md) -/

/-- R190: 00E0 clears every pixel and changes nothing else. -/
def Obligations.ClearTurnsEveryPixelOff : Prop :=
  Encoded .cls 0x00E0 0xFFFF ∧
  ∀ s : State, ∃ t, exec .cls s = .next t ∧ (∀ px py, px < 64 → py < 32 → t.pixel px py = false) ∧
    Frame [.display] s t

/-- 44_display.md R191 to R195 (the spec's decisions D3, D10): DXYN toggles exactly the pixels under the sprite's set bits,
wrapping in both directions, and VF is 1 exactly when one of them was lit; past 0xFFF it faults before any write. -/
def Obligations.DrawTogglesTheSprite : Prop :=
  ∀ (x y : Reg) (n : Nat) (s : State), n < 16 → Encoded (.drw x y n) 0xD000 0xF000 ∧
    (n = 0 ∨ s.i.toNat + n - 1 ≤ 0xFFF →
      ∃ t, exec (.drw x y n) s = .next t ∧
        (∀ px py, px < 64 → py < 32 →
          t.pixel px py = (s.pixel px py != s.spriteBit (s.reg x).toNat (s.reg y).toNat n px py)) ∧
        (t.reg 0xF = 0 ∨ t.reg 0xF = 1) ∧
        (t.reg 0xF = 1 ↔ ∃ px py, px < 64 ∧ py < 32 ∧ s.pixel px py = true ∧
          s.spriteBit (s.reg x).toNat (s.reg y).toNat n px py = true) ∧
        Frame [.display, .reg 0xF] s t) ∧
    (0 < n → s.i.toNat + n - 1 > 0xFFF →
      ∃ t, exec (.drw x y n) s = .next t ∧ FaultEntry .memoryBounds (encode (.drw x y n)) (max s.i.toNat 0x1000) s t)

/-- 95_test_vectors.md E7, for every sprite and place: drawing twice restores the framebuffer, and on a blank screen the
second draw collides exactly when the sprite has a set bit. -/
def Obligations.DrawingTwiceRestoresTheScreen : Prop :=
  ∀ (x y : Reg) (n : Nat) (s : State), n < 16 → x ≠ 0xF → y ≠ 0xF → (n = 0 ∨ s.i.toNat + n - 1 ≤ 0xFFF) →
    ∃ t u, exec (.drw x y n) s = .next t ∧ exec (.drw x y n) t = .next u ∧ u.fb = s.fb ∧
      ((∀ px py, px < 64 → py < 32 → s.pixel px py = false) → (t.reg 0xF = 0 ∧ (u.reg 0xF = 1 ↔ ∃ px py, px < 64 ∧ py < 32 ∧
        s.spriteBit (s.reg x).toNat (s.reg y).toNat n px py = true)))

/-! ### Keys and timers (45_keys_timers.md) -/

/-- 45_keys_timers.md R200, R201, R206 (the spec's decision D13): EX9E and EXA1 skip on the key V[X] names; a number above 0xF
faults and is not reduced. -/
def Obligations.KeySkips : Prop :=
  ∀ (x : Reg) (s : State), Encoded (.skp x) 0xE09E 0xF0FF ∧ Encoded (.sknp x) 0xE0A1 0xF0FF ∧
    (∀ k : Reg, (s.reg x).toNat = k.val →
      (∃ t, exec (.skp x) s = .next t ∧ t.pc = (if s.key[k] = true then s.pc + 2 else s.pc) ∧ Frame [.pc] s t) ∧
      (∃ t, exec (.sknp x) s = .next t ∧ t.pc = (if s.key[k] = true then s.pc else s.pc + 2) ∧ Frame [.pc] s t)) ∧
    ((s.reg x).toNat > 0xF →
      (∃ t, exec (.skp x) s = .next t ∧ FaultEntry .keyIndex (encode (.skp x)) (s.reg x).toNat s t) ∧
      (∃ t, exec (.sknp x) s = .next t ∧ FaultEntry .keyIndex (encode (.sknp x)) (s.reg x).toNat s t))

/-- 45_keys_timers.md R203 (the spec's decision D12): FX0A with no key pressed moves only `pc`, back to the word; otherwise
V[X] gets the lowest pressed key. -/
def Obligations.KeyReadTakesTheLowestKeyOrWaits : Prop :=
  ∀ (x : Reg) (s : State), Encoded (.ldXK x) 0xF00A 0xF0FF ∧
    ((∀ k : Reg, s.key[k] = false) →
      ∃ t, exec (.ldXK x) s = .next t ∧ t.pc = s.pc - 2 ∧ Frame [.pc] s t) ∧
    (∀ k : Reg, s.key[k] = true → (∀ j : Reg, j < k → s.key[j] = false) →
      ∃ t, exec (.ldXK x) s = .next t ∧ (t.reg x).toNat = k.val ∧ Frame [.reg x] s t)

/-- 45_keys_timers.md R213 (derived there): while the host presses no key (and neither loads nor resets), the wait goes on
through every run of events, the core awaiting a key all the while and nothing but the timers changing. -/
def Obligations.KeyWaitEndsOnlyByAKey : Prop :=
  ∀ (es : List Event) (s : State), AwaitingKey s → (∀ e ∈ es, e.leavesKeysUp) →
    ∃ t, runEvents es s = .next t ∧ AwaitingKey t ∧ Frame [.delay, .sound] s t

/-- R202, R204, R205: FX07, FX15 and FX18 move the timers and nothing else. -/
def Obligations.TimerMoves : Prop :=
  ∀ (x : Reg) (s : State),
    (Encoded (.ldXDt x) 0xF007 0xF0FF ∧ ∃ t, exec (.ldXDt x) s = .next t ∧ t.reg x = s.dt ∧ Frame [.reg x] s t) ∧
    (Encoded (.ldDtX x) 0xF015 0xF0FF ∧ ∃ t, exec (.ldDtX x) s = .next t ∧ t.dt = s.reg x ∧ Frame [.delay] s t) ∧
    (Encoded (.ldStX x) 0xF018 0xF0FF ∧ ∃ t, exec (.ldStX x) s = .next t ∧ t.st = s.reg x ∧ Frame [.sound] s t)

/-- 45_keys_timers.md R210, R211 (the spec's decisions D14, D23, D26): a tick takes each nonzero timer down by one and changes
nothing else, whatever the status; the tone is on exactly while `ST` is nonzero. -/
def Obligations.TickAndTone : Prop :=
  ∀ s : State, (∃ t, applyEvent .tick s = .next (t, .done) ∧ t.dt.toNat = s.dt.toNat - 1 ∧
    t.st.toNat = s.st.toNat - 1 ∧ Frame [.delay, .sound] s t) ∧ (tone s = true ↔ s.st ≠ 0)

/-- 45_keys_timers.md R212, 44_display.md R196 (the spec's decisions D1, D11, D18): `SetKey` sets one key and changes nothing
else; `ReadPixel` answers the pixel and changes nothing, and the packed form holds it at index `y * 64 + x`. -/
def Obligations.KeyAndPixelPorts : Prop :=
  (∀ (s : State) (k : Reg) (b : Bool), ∃ t, applyEvent (.setKey k b) s = .next (t, .done) ∧ t.key[k] = b ∧
    (∀ j : Reg, j ≠ k → t.key[j] = s.key[j]) ∧ Frame [.keys] s t) ∧
  (∀ (s : State) (x : Fin 64) (y : Fin 32), applyEvent (.readPixel x y) s = .next (s, .pixel (s.pixel x.val y.val)) ∧
    (packedFramebuffer s)[y.val * 64 + x.val]? = some (s.pixel x.val y.val))

/-! ### Reset, load and runs (70_reset_and_hazards.md) -/

/-- R253: an image of at most 3584 bytes is placed byte by byte from 0x200 on; a longer one fails to load. -/
def Obligations.LoadPlacesTheImage : Prop :=
  ∀ (image : List Byte) (s : State),
    (image.length ≤ 3584 →
      ∃ t, applyEvent (.load image) s = .next (t, .loadOk) ∧
        ∀ (j : Nat) (h : j < image.length), t.byteAt (0x200 + j) = image[j]) ∧
    (image.length > 3584 → ∃ t, applyEvent (.load image) s = .next (t, .loadFault))

/-- 70_reset_and_hazards.md R254, R256 (the spec's decision D19): a load writes the image's bytes and nothing else, whenever
it comes; an image that is too long changes nothing. -/
def Obligations.LoadWritesNothingElse : Prop :=
  ∀ (image : List Byte) (s t : State) (a : Answer), applyEvent (.load image) s = .next (t, a) →
    (image.length ≤ 3584 → a = .loadOk ∧ Frame [.memory 0x200 image.length] s t) ∧
    (image.length > 3584 → a = .loadFault ∧ t = s)

/-- R250: `Reset`, in any status, gives every element its reset value: the font in the font region, 0x200 in `pc`, running,
and zero everywhere else. -/
def Obligations.ResetGivesTheResetValues : Prop :=
  ∀ s : State, ∃ t, applyEvent .reset s = .next (t, .done) ∧ (∀ r, t.reg r = 0) ∧ t.i = 0 ∧ t.pc = 0x200 ∧ t.sp = 0 ∧
    (∀ j : Fin 16, t.stack[j] = 0) ∧ t.dt = 0 ∧ t.st = 0 ∧ (∀ px py, px < 64 → py < 32 → t.pixel px py = false) ∧
    (∀ k : Reg, t.key[k] = false) ∧
    (∀ (d : Fin 16) (j : Fin 5), t.byteAt (s.cfg.fontBase.toNat + 5 * d.val + j.val) = s.cfg.fontData[d][j]) ∧
    (∀ a, (a < s.cfg.fontBase.toNat ∨ s.cfg.fontBase.toNat + 80 ≤ a) → t.byteAt a = 0) ∧ t.status = .running

/-- The invariant holds at reset: for the machine's first state and after every `Reset`. -/
def Obligations.ResetMeetsTheInvariant : Prop := StateInv State.reset ∧ ∀ s : State, StateInv s.resetEvent

/-- 10_state.md R27, R28, R34, 41_control_flow.md R121: every step keeps the invariant: memory in canonical form, `pc` at most
0x10FE, return addresses at most 0x1000, a record's address equal to `pc`. -/
def Obligations.StepKeepsTheInvariant : Prop := ∀ s t : State, StateInv s → step s = .next t → StateInv t

/-- The same along every run, for every order of the host's events and every random byte (00_scope.md R11). -/
def Obligations.RunsKeepTheInvariant : Prop :=
  ∀ (es : List Event) (s t : State), StateInv s → runEvents es s = .next t → StateInv t

/-- A word placed for the next fetch is the one the next step runs: what the interface's program placing stands on
(notes/assumptions/3.md). -/
def Obligations.PlacedWordRunsNext : Prop :=
  ∀ (s : State) (w : Nat) (i : Instr), s.status = .running → s.fetchable → s.cfg.strict59 = true →
    decodeTableWord 16 w = some i →
    step (s.withFetchWord 16 w) = mapNext State.coupledTick (exec i (s.withFetchWord 16 w).advance)
end

