-- ==== Sys2Proof/Laws/Decode.lean ====
section
/-! SUPPORT. The fields of the words the encoder makes (30_encoding.md R71, R83), and a word put together from its two
bytes. -/

namespace Sys2Proof

theorem fieldG_toNat (w : Word) : fieldG w = w.toNat / 0x1000 := by
  have := w.isLt
  simp only [fieldG, BitVec.extractLsb'_toNat, Nat.shiftRight_eq_div_pow]
  omega

theorem fieldN_toNat (w : Word) : fieldN w = w.toNat % 0x10 := by
  simp only [fieldN, BitVec.extractLsb'_toNat, Nat.shiftRight_eq_div_pow]
  omega

theorem fieldX_val (w : Word) : (fieldX w).val = w.toNat / 0x100 % 0x10 := by
  show (w.extractLsb' 8 4).toNat = _
  simp only [BitVec.extractLsb'_toNat, Nat.shiftRight_eq_div_pow]

theorem fieldY_val (w : Word) : (fieldY w).val = w.toNat / 0x10 % 0x10 := by
  show (w.extractLsb' 4 4).toNat = _
  simp only [BitVec.extractLsb'_toNat, Nat.shiftRight_eq_div_pow]

theorem fieldNN_toNat (w : Word) : (fieldNN w).toNat = w.toNat % 0x100 := by
  simp only [fieldNN, BitVec.extractLsb'_toNat, Nat.shiftRight_eq_div_pow]
  omega

theorem fieldNNN_toNat (w : Word) : (fieldNNN w).toNat = w.toNat % 0x1000 := by
  simp only [fieldNNN, BitVec.extractLsb'_toNat, Nat.shiftRight_eq_div_pow]
  omega

theorem encodeNNN_toNat (g : Nat) (hg : g < 16) (nnn : Addr12) :
    (encodeNNN g nnn).toNat = g * 0x1000 + nnn.toNat := by
  have := nnn.isLt
  simp only [encodeNNN, BitVec.toNat_ofNat]
  omega

theorem encodeXNN_toNat (g : Nat) (hg : g < 16) (x : Reg) (nn : Byte) :
    (encodeXNN g x nn).toNat = g * 0x1000 + x.val * 0x100 + nn.toNat := by
  have := nn.isLt
  have := x.isLt
  simp only [encodeXNN, BitVec.toNat_ofNat]
  omega

theorem encodeXYN_toNat (g : Nat) (hg : g < 16) (x y : Reg) (n : Nat) (hn : n < 16) :
    (encodeXYN g x y n).toNat = g * 0x1000 + x.val * 0x100 + y.val * 0x10 + n := by
  have := y.isLt
  have := x.isLt
  simp only [encodeXYN, BitVec.toNat_ofNat]
  omega

/-! ### Format G-NNN -/

theorem fieldG_encodeNNN (g : Nat) (hg : g < 16) (nnn : Addr12) : fieldG (encodeNNN g nnn) = g := by
  have := nnn.isLt
  rw [fieldG_toNat, encodeNNN_toNat g hg]
  omega

theorem fieldNNN_encodeNNN (g : Nat) (hg : g < 16) (nnn : Addr12) : fieldNNN (encodeNNN g nnn) = nnn := by
  have := nnn.isLt
  apply BitVec.eq_of_toNat_eq
  rw [fieldNNN_toNat, encodeNNN_toNat g hg]
  omega

/-! ### Format G-X-NN -/

theorem fieldG_encodeXNN (g : Nat) (hg : g < 16) (x : Reg) (nn : Byte) : fieldG (encodeXNN g x nn) = g := by
  have := nn.isLt
  have := x.isLt
  rw [fieldG_toNat, encodeXNN_toNat g hg]
  omega

theorem fieldX_encodeXNN (g : Nat) (hg : g < 16) (x : Reg) (nn : Byte) : fieldX (encodeXNN g x nn) = x := by
  have := nn.isLt
  have := x.isLt
  apply Fin.ext
  rw [fieldX_val, encodeXNN_toNat g hg]
  omega

theorem fieldNN_encodeXNN (g : Nat) (hg : g < 16) (x : Reg) (nn : Byte) : fieldNN (encodeXNN g x nn) = nn := by
  have := nn.isLt
  have := x.isLt
  apply BitVec.eq_of_toNat_eq
  rw [fieldNN_toNat, encodeXNN_toNat g hg]
  omega

/-! ### Formats G-X-Y-S and G-X-Y-N -/

theorem fieldG_encodeXYN (g : Nat) (hg : g < 16) (x y : Reg) (n : Nat) (hn : n < 16) : fieldG (encodeXYN g x y n) = g := by
  have := y.isLt
  have := x.isLt
  rw [fieldG_toNat, encodeXYN_toNat g hg x y n hn]
  omega

theorem fieldX_encodeXYN (g : Nat) (hg : g < 16) (x y : Reg) (n : Nat) (hn : n < 16) : fieldX (encodeXYN g x y n) = x := by
  have := y.isLt
  have := x.isLt
  apply Fin.ext
  rw [fieldX_val, encodeXYN_toNat g hg x y n hn]
  omega

theorem fieldY_encodeXYN (g : Nat) (hg : g < 16) (x y : Reg) (n : Nat) (hn : n < 16) : fieldY (encodeXYN g x y n) = y := by
  have := y.isLt
  have := x.isLt
  apply Fin.ext
  rw [fieldY_val, encodeXYN_toNat g hg x y n hn]
  omega

theorem fieldN_encodeXYN (g : Nat) (hg : g < 16) (x y : Reg) (n : Nat) (hn : n < 16) : fieldN (encodeXYN g x y n) = n := by
  have := y.isLt
  have := x.isLt
  rw [fieldN_toNat, encodeXYN_toNat g hg x y n hn]
  omega

/-! ### Words and bytes -/

theorem wordOfBytes_toNat (hi lo : Byte) : (wordOfBytes hi lo).toNat = hi.toNat * 0x100 + lo.toNat := by
  have := hi.isLt
  have := lo.isLt
  simp only [wordOfBytes, BitVec.toNat_ofNat]
  omega

theorem highByte_toNat (w : Word) : (highByte w).toNat = w.toNat / 0x100 := by
  have := w.isLt
  simp only [highByte, BitVec.extractLsb'_toNat, Nat.shiftRight_eq_div_pow]
  omega

theorem lowByte_toNat (w : Word) : (lowByte w).toNat = w.toNat % 0x100 := by
  simp only [lowByte, BitVec.extractLsb'_toNat, Nat.shiftRight_eq_div_pow]
  omega

/-- A word is the word of its two bytes (R55). -/
@[simp] theorem wordOfBytes_high_low (w : Word) : wordOfBytes (highByte w) (lowByte w) = w := by
  apply BitVec.eq_of_toNat_eq
  rw [wordOfBytes_toNat, highByte_toNat, lowByte_toNat]
  omega

@[simp] theorem highByte_wordOfBytes (hi lo : Byte) : highByte (wordOfBytes hi lo) = hi := by
  apply BitVec.eq_of_toNat_eq
  have := lo.isLt
  rw [highByte_toNat, wordOfBytes_toNat]
  omega

@[simp] theorem lowByte_wordOfBytes (hi lo : Byte) : lowByte (wordOfBytes hi lo) = lo := by
  apply BitVec.eq_of_toNat_eq
  have := lo.isLt
  rw [lowByte_toNat, wordOfBytes_toNat]
  omega

/-! ### A word is made of its fields -/

theorem eq_encodeNNN (w : Word) : w = encodeNNN (fieldG w) (fieldNNN w) := by
  apply BitVec.eq_of_toNat_eq
  have := w.isLt
  rw [encodeNNN_toNat _ (by rw [fieldG_toNat]; omega), fieldG_toNat, fieldNNN_toNat]
  omega

theorem eq_encodeXNN (w : Word) : w = encodeXNN (fieldG w) (fieldX w) (fieldNN w) := by
  apply BitVec.eq_of_toNat_eq
  have := w.isLt
  rw [encodeXNN_toNat _ (by rw [fieldG_toNat]; omega), fieldG_toNat, fieldX_val, fieldNN_toNat]
  omega

theorem eq_encodeXYN (w : Word) : w = encodeXYN (fieldG w) (fieldX w) (fieldY w) (fieldN w) := by
  apply BitVec.eq_of_toNat_eq
  have := w.isLt
  rw [encodeXYN_toNat _ (by rw [fieldG_toNat]; omega) _ _ _ (by rw [fieldN_toNat]; omega), fieldG_toNat, fieldX_val,
    fieldY_val, fieldN_toNat]
  omega

/-! ### Masks -/

/-- The mask of the formats G-NNN, G-X-NN and G-X-Y-N. -/
theorem and_F000 (w : Word) : (w &&& 0xF000).toNat = w.toNat / 0x1000 * 0x1000 := by
  have key : w &&& 0xF000 = (w.extractLsb' 12 4) ++ (0#12) := by
    ext k hk
    simp only [BitVec.getElem_and, BitVec.getElem_append, BitVec.getElem_extractLsb']
    interval_cases k <;> simp
  rw [key]
  have := w.isLt
  simp only [BitVec.toNat_append, BitVec.extractLsb'_toNat, BitVec.toNat_ofNat, Nat.shiftLeft_eq, Nat.shiftRight_eq_div_pow,
    Nat.zero_mod, Nat.or_zero]
  omega

/-- The low bits a mask keeps beside the group. -/
theorem and_mask_low (w m : Word) (k : Nat) (hk : k ≤ 12) (hm : m = 0xF000 ||| BitVec.ofNat 16 (2 ^ k - 1)) :
    (w &&& m).toNat = w.toNat / 0x1000 * 0x1000 + w.toNat % 2 ^ k := by
  subst hm
  have hsplit : w &&& (0xF000 ||| BitVec.ofNat 16 (2 ^ k - 1)) = (w &&& 0xF000) ||| (w &&& BitVec.ofNat 16 (2 ^ k - 1)) := by
    ext j hj
    simp only [BitVec.getElem_and, BitVec.getElem_or]
    cases w[j] <;> simp
  have hp : 2 ^ k ≤ 2 ^ 12 := Nat.pow_le_pow_right (by omega) hk
  have hpos : 0 < 2 ^ k := Nat.two_pow_pos k
  have hlow : (w &&& BitVec.ofNat 16 (2 ^ k - 1)).toNat = w.toNat % 2 ^ k := by
    rw [BitVec.toNat_and, BitVec.toNat_ofNat, Nat.mod_eq_of_lt (by omega), Nat.and_two_pow_sub_one_eq_mod]
  rw [hsplit, BitVec.toNat_or, hlow, and_F000]
  have hr : w.toNat % 2 ^ k < 2 ^ 12 := Nat.lt_of_lt_of_le (Nat.mod_lt _ hpos) hp
  have := Nat.two_pow_add_eq_or_of_lt hr (w.toNat / 0x1000)
  rw [show (0x1000 : Nat) = 2 ^ 12 by rfl, Nat.mul_comm]
  exact this.symm

/-- The mask of the format G-X-Y-S. -/
theorem and_F00F (w : Word) : (w &&& 0xF00F).toNat = w.toNat / 0x1000 * 0x1000 + w.toNat % 0x10 :=
  and_mask_low w 0xF00F 4 (by omega) (by decide)

/-- The mask of the format G-X-SS. -/
theorem and_F0FF (w : Word) : (w &&& 0xF0FF).toNat = w.toNat / 0x1000 * 0x1000 + w.toNat % 0x100 :=
  and_mask_low w 0xF0FF 8 (by omega) (by decide)

/-- The mask that clears N. -/
theorem and_FFF0 (w : Word) : (w &&& 0xFFF0).toNat = w.toNat / 0x10 * 0x10 := by
  have key : w &&& 0xFFF0 = (w.extractLsb' 4 12) ++ (0#4) := by
    ext k hk
    simp only [BitVec.getElem_and, BitVec.getElem_append, BitVec.getElem_extractLsb']
    interval_cases k <;> simp
  rw [key]
  have := w.isLt
  simp only [BitVec.toNat_append, BitVec.extractLsb'_toNat, BitVec.toNat_ofNat, Nat.shiftLeft_eq, Nat.shiftRight_eq_div_pow,
    Nat.zero_mod, Nat.or_zero]
  omega

/-- The group and registers of a word with N = 0 give the word with N cleared. -/
theorem encodeXYN_zero (w : Word) : encodeXYN (fieldG w) (fieldX w) (fieldY w) 0 = w &&& 0xFFF0 := by
  have hw := w.isLt
  have hG := fieldG_toNat w
  apply BitVec.eq_of_toNat_eq
  rw [encodeXYN_toNat _ (by omega) _ _ 0 (by omega), and_FFF0, hG, fieldX_val, fieldY_val]
  omega

/-- A word of format G-NNN under its mask. -/
theorem encodeNNN_row (g : Nat) (hg : g < 16) (nnn : Addr12) : encodeNNN g nnn &&& 0xF000 = BitVec.ofNat 16 (g * 0x1000) := by
  apply BitVec.eq_of_toNat_eq
  have := nnn.isLt
  rw [and_F000, encodeNNN_toNat g hg, BitVec.toNat_ofNat]
  omega

/-- A word of format G-X-NN under its mask. -/
theorem encodeXNN_row (g : Nat) (hg : g < 16) (x : Reg) (nn : Byte) :
    encodeXNN g x nn &&& 0xF000 = BitVec.ofNat 16 (g * 0x1000) := by
  apply BitVec.eq_of_toNat_eq
  have := x.isLt
  have := nn.isLt
  rw [and_F000, encodeXNN_toNat g hg, BitVec.toNat_ofNat]
  omega

/-- A word of format G-X-SS under its mask. -/
theorem encodeXSS_row (g : Nat) (hg : g < 16) (x : Reg) (nn : Byte) :
    encodeXNN g x nn &&& 0xF0FF = BitVec.ofNat 16 (g * 0x1000 + nn.toNat) := by
  apply BitVec.eq_of_toNat_eq
  have := x.isLt
  have := nn.isLt
  rw [and_F0FF, encodeXNN_toNat g hg, BitVec.toNat_ofNat]
  omega

/-- A word of format G-X-Y-N under its mask. -/
theorem encodeXYN_row (g : Nat) (hg : g < 16) (x y : Reg) (n : Nat) (hn : n < 16) :
    encodeXYN g x y n &&& 0xF000 = BitVec.ofNat 16 (g * 0x1000) := by
  apply BitVec.eq_of_toNat_eq
  have := x.isLt
  have := y.isLt
  rw [and_F000, encodeXYN_toNat g hg x y n hn, BitVec.toNat_ofNat]
  omega

/-- A word of format G-X-Y-S under its mask. -/
theorem encodeXYS_row (g : Nat) (hg : g < 16) (x y : Reg) (n : Nat) (hn : n < 16) :
    encodeXYN g x y n &&& 0xF00F = BitVec.ofNat 16 (g * 0x1000 + n) := by
  apply BitVec.eq_of_toNat_eq
  have := x.isLt
  have := y.isLt
  rw [and_F00F, encodeXYN_toNat g hg x y n hn, BitVec.toNat_ofNat]
  omega

end Sys2Proof
end

