-- ==== Sys2Proof/Laws/State.lean ====
section
/-! SUPPORT. One lemma per field of State and per update of it, each true by definition, so that no later proof unfolds a
record update; then the reads of one register, byte, key and pixel after each update. -/

namespace Sys2Proof.Machine

/-! ### `setByte` -/

@[simp] theorem State.setByte_v (s : State) (a : Nat) (b : Byte) :
    (s.setByte a b).v = s.v := rfl

@[simp] theorem State.setByte_i (s : State) (a : Nat) (b : Byte) :
    (s.setByte a b).i = s.i := rfl

@[simp] theorem State.setByte_pc (s : State) (a : Nat) (b : Byte) :
    (s.setByte a b).pc = s.pc := rfl

@[simp] theorem State.setByte_sp (s : State) (a : Nat) (b : Byte) :
    (s.setByte a b).sp = s.sp := rfl

@[simp] theorem State.setByte_stack (s : State) (a : Nat) (b : Byte) :
    (s.setByte a b).stack = s.stack := rfl

@[simp] theorem State.setByte_dt (s : State) (a : Nat) (b : Byte) :
    (s.setByte a b).dt = s.dt := rfl

@[simp] theorem State.setByte_st (s : State) (a : Nat) (b : Byte) :
    (s.setByte a b).st = s.st := rfl

@[simp] theorem State.setByte_fb (s : State) (a : Nat) (b : Byte) :
    (s.setByte a b).fb = s.fb := rfl

@[simp] theorem State.setByte_key (s : State) (a : Nat) (b : Byte) :
    (s.setByte a b).key = s.key := rfl

@[simp] theorem State.setByte_mem (s : State) (a : Nat) (b : Byte) :
    (s.setByte a b).mem = Memory.write s.cfg s.mem a b := rfl

@[simp] theorem State.setByte_status (s : State) (a : Nat) (b : Byte) :
    (s.setByte a b).status = s.status := rfl

@[simp] theorem State.setByte_cfg (s : State) (a : Nat) (b : Byte) :
    (s.setByte a b).cfg = s.cfg := rfl

@[simp] theorem State.setByte_draws (s : State) (a : Nat) (b : Byte) :
    (s.setByte a b).draws = s.draws := rfl

@[simp] theorem State.setByte_reg (s : State) (a : Nat) (b : Byte) (r : Reg) :
    (s.setByte a b).reg r = s.reg r := rfl

@[simp] theorem State.setByte_pressed (s : State) (a : Nat) (b : Byte) (k : Reg) :
    (s.setByte a b).pressed k = s.pressed k := rfl

@[simp] theorem State.setByte_base (s : State) (a : Nat) (b : Byte) :
    (s.setByte a b).base = s.base := rfl

@[simp] theorem State.setByte_pixel (s : State) (a : Nat) (b : Byte) (px py : Nat) :
    (s.setByte a b).pixel px py = s.pixel px py := rfl

/-! ### `setReg` -/

@[simp] theorem State.setReg_v (s : State) (x : Reg) (b : Byte) :
    (s.setReg x b).v = s.v.set x.val b x.isLt := rfl

@[simp] theorem State.setReg_i (s : State) (x : Reg) (b : Byte) :
    (s.setReg x b).i = s.i := rfl

@[simp] theorem State.setReg_pc (s : State) (x : Reg) (b : Byte) :
    (s.setReg x b).pc = s.pc := rfl

@[simp] theorem State.setReg_sp (s : State) (x : Reg) (b : Byte) :
    (s.setReg x b).sp = s.sp := rfl

@[simp] theorem State.setReg_stack (s : State) (x : Reg) (b : Byte) :
    (s.setReg x b).stack = s.stack := rfl

@[simp] theorem State.setReg_dt (s : State) (x : Reg) (b : Byte) :
    (s.setReg x b).dt = s.dt := rfl

@[simp] theorem State.setReg_st (s : State) (x : Reg) (b : Byte) :
    (s.setReg x b).st = s.st := rfl

@[simp] theorem State.setReg_fb (s : State) (x : Reg) (b : Byte) :
    (s.setReg x b).fb = s.fb := rfl

@[simp] theorem State.setReg_key (s : State) (x : Reg) (b : Byte) :
    (s.setReg x b).key = s.key := rfl

@[simp] theorem State.setReg_mem (s : State) (x : Reg) (b : Byte) :
    (s.setReg x b).mem = s.mem := rfl

@[simp] theorem State.setReg_status (s : State) (x : Reg) (b : Byte) :
    (s.setReg x b).status = s.status := rfl

@[simp] theorem State.setReg_cfg (s : State) (x : Reg) (b : Byte) :
    (s.setReg x b).cfg = s.cfg := rfl

@[simp] theorem State.setReg_draws (s : State) (x : Reg) (b : Byte) :
    (s.setReg x b).draws = s.draws := rfl

@[simp] theorem State.setReg_byteAt (s : State) (x : Reg) (b : Byte) (k : Nat) :
    (s.setReg x b).byteAt k = s.byteAt k := rfl

@[simp] theorem State.setReg_pressed (s : State) (x : Reg) (b : Byte) (k : Reg) :
    (s.setReg x b).pressed k = s.pressed k := rfl

@[simp] theorem State.setReg_base (s : State) (x : Reg) (b : Byte) :
    (s.setReg x b).base = s.base := rfl

@[simp] theorem State.setReg_pixel (s : State) (x : Reg) (b : Byte) (px py : Nat) :
    (s.setReg x b).pixel px py = s.pixel px py := rfl

/-! ### `setI` -/

@[simp] theorem State.setI_v (s : State) (w : Word) :
    (s.setI w).v = s.v := rfl

@[simp] theorem State.setI_i (s : State) (w : Word) :
    (s.setI w).i = w := rfl

@[simp] theorem State.setI_pc (s : State) (w : Word) :
    (s.setI w).pc = s.pc := rfl

@[simp] theorem State.setI_sp (s : State) (w : Word) :
    (s.setI w).sp = s.sp := rfl

@[simp] theorem State.setI_stack (s : State) (w : Word) :
    (s.setI w).stack = s.stack := rfl

@[simp] theorem State.setI_dt (s : State) (w : Word) :
    (s.setI w).dt = s.dt := rfl

@[simp] theorem State.setI_st (s : State) (w : Word) :
    (s.setI w).st = s.st := rfl

@[simp] theorem State.setI_fb (s : State) (w : Word) :
    (s.setI w).fb = s.fb := rfl

@[simp] theorem State.setI_key (s : State) (w : Word) :
    (s.setI w).key = s.key := rfl

@[simp] theorem State.setI_mem (s : State) (w : Word) :
    (s.setI w).mem = s.mem := rfl

@[simp] theorem State.setI_status (s : State) (w : Word) :
    (s.setI w).status = s.status := rfl

@[simp] theorem State.setI_cfg (s : State) (w : Word) :
    (s.setI w).cfg = s.cfg := rfl

@[simp] theorem State.setI_draws (s : State) (w : Word) :
    (s.setI w).draws = s.draws := rfl

@[simp] theorem State.setI_reg (s : State) (w : Word) (r : Reg) :
    (s.setI w).reg r = s.reg r := rfl

@[simp] theorem State.setI_byteAt (s : State) (w : Word) (k : Nat) :
    (s.setI w).byteAt k = s.byteAt k := rfl

@[simp] theorem State.setI_pressed (s : State) (w : Word) (k : Reg) :
    (s.setI w).pressed k = s.pressed k := rfl

@[simp] theorem State.setI_pixel (s : State) (w : Word) (px py : Nat) :
    (s.setI w).pixel px py = s.pixel px py := rfl

/-! ### `setPc` -/

@[simp] theorem State.setPc_v (s : State) (w : Word) :
    (s.setPc w).v = s.v := rfl

@[simp] theorem State.setPc_i (s : State) (w : Word) :
    (s.setPc w).i = s.i := rfl

@[simp] theorem State.setPc_pc (s : State) (w : Word) :
    (s.setPc w).pc = w := rfl

@[simp] theorem State.setPc_sp (s : State) (w : Word) :
    (s.setPc w).sp = s.sp := rfl

@[simp] theorem State.setPc_stack (s : State) (w : Word) :
    (s.setPc w).stack = s.stack := rfl

@[simp] theorem State.setPc_dt (s : State) (w : Word) :
    (s.setPc w).dt = s.dt := rfl

@[simp] theorem State.setPc_st (s : State) (w : Word) :
    (s.setPc w).st = s.st := rfl

@[simp] theorem State.setPc_fb (s : State) (w : Word) :
    (s.setPc w).fb = s.fb := rfl

@[simp] theorem State.setPc_key (s : State) (w : Word) :
    (s.setPc w).key = s.key := rfl

@[simp] theorem State.setPc_mem (s : State) (w : Word) :
    (s.setPc w).mem = s.mem := rfl

@[simp] theorem State.setPc_status (s : State) (w : Word) :
    (s.setPc w).status = s.status := rfl

@[simp] theorem State.setPc_cfg (s : State) (w : Word) :
    (s.setPc w).cfg = s.cfg := rfl

@[simp] theorem State.setPc_draws (s : State) (w : Word) :
    (s.setPc w).draws = s.draws := rfl

@[simp] theorem State.setPc_reg (s : State) (w : Word) (r : Reg) :
    (s.setPc w).reg r = s.reg r := rfl

@[simp] theorem State.setPc_byteAt (s : State) (w : Word) (k : Nat) :
    (s.setPc w).byteAt k = s.byteAt k := rfl

@[simp] theorem State.setPc_pressed (s : State) (w : Word) (k : Reg) :
    (s.setPc w).pressed k = s.pressed k := rfl

@[simp] theorem State.setPc_base (s : State) (w : Word) :
    (s.setPc w).base = s.base := rfl

@[simp] theorem State.setPc_pixel (s : State) (w : Word) (px py : Nat) :
    (s.setPc w).pixel px py = s.pixel px py := rfl

/-! ### `setDt` -/

@[simp] theorem State.setDt_v (s : State) (b : Byte) :
    (s.setDt b).v = s.v := rfl

@[simp] theorem State.setDt_i (s : State) (b : Byte) :
    (s.setDt b).i = s.i := rfl

@[simp] theorem State.setDt_pc (s : State) (b : Byte) :
    (s.setDt b).pc = s.pc := rfl

@[simp] theorem State.setDt_sp (s : State) (b : Byte) :
    (s.setDt b).sp = s.sp := rfl

@[simp] theorem State.setDt_stack (s : State) (b : Byte) :
    (s.setDt b).stack = s.stack := rfl

@[simp] theorem State.setDt_dt (s : State) (b : Byte) :
    (s.setDt b).dt = b := rfl

@[simp] theorem State.setDt_st (s : State) (b : Byte) :
    (s.setDt b).st = s.st := rfl

@[simp] theorem State.setDt_fb (s : State) (b : Byte) :
    (s.setDt b).fb = s.fb := rfl

@[simp] theorem State.setDt_key (s : State) (b : Byte) :
    (s.setDt b).key = s.key := rfl

@[simp] theorem State.setDt_mem (s : State) (b : Byte) :
    (s.setDt b).mem = s.mem := rfl

@[simp] theorem State.setDt_status (s : State) (b : Byte) :
    (s.setDt b).status = s.status := rfl

@[simp] theorem State.setDt_cfg (s : State) (b : Byte) :
    (s.setDt b).cfg = s.cfg := rfl

@[simp] theorem State.setDt_draws (s : State) (b : Byte) :
    (s.setDt b).draws = s.draws := rfl

@[simp] theorem State.setDt_reg (s : State) (b : Byte) (r : Reg) :
    (s.setDt b).reg r = s.reg r := rfl

@[simp] theorem State.setDt_byteAt (s : State) (b : Byte) (k : Nat) :
    (s.setDt b).byteAt k = s.byteAt k := rfl

@[simp] theorem State.setDt_pressed (s : State) (b : Byte) (k : Reg) :
    (s.setDt b).pressed k = s.pressed k := rfl

@[simp] theorem State.setDt_base (s : State) (b : Byte) :
    (s.setDt b).base = s.base := rfl

@[simp] theorem State.setDt_pixel (s : State) (b : Byte) (px py : Nat) :
    (s.setDt b).pixel px py = s.pixel px py := rfl

/-! ### `setSt` -/

@[simp] theorem State.setSt_v (s : State) (b : Byte) :
    (s.setSt b).v = s.v := rfl

@[simp] theorem State.setSt_i (s : State) (b : Byte) :
    (s.setSt b).i = s.i := rfl

@[simp] theorem State.setSt_pc (s : State) (b : Byte) :
    (s.setSt b).pc = s.pc := rfl

@[simp] theorem State.setSt_sp (s : State) (b : Byte) :
    (s.setSt b).sp = s.sp := rfl

@[simp] theorem State.setSt_stack (s : State) (b : Byte) :
    (s.setSt b).stack = s.stack := rfl

@[simp] theorem State.setSt_dt (s : State) (b : Byte) :
    (s.setSt b).dt = s.dt := rfl

@[simp] theorem State.setSt_st (s : State) (b : Byte) :
    (s.setSt b).st = b := rfl

@[simp] theorem State.setSt_fb (s : State) (b : Byte) :
    (s.setSt b).fb = s.fb := rfl

@[simp] theorem State.setSt_key (s : State) (b : Byte) :
    (s.setSt b).key = s.key := rfl

@[simp] theorem State.setSt_mem (s : State) (b : Byte) :
    (s.setSt b).mem = s.mem := rfl

@[simp] theorem State.setSt_status (s : State) (b : Byte) :
    (s.setSt b).status = s.status := rfl

@[simp] theorem State.setSt_cfg (s : State) (b : Byte) :
    (s.setSt b).cfg = s.cfg := rfl

@[simp] theorem State.setSt_draws (s : State) (b : Byte) :
    (s.setSt b).draws = s.draws := rfl

@[simp] theorem State.setSt_reg (s : State) (b : Byte) (r : Reg) :
    (s.setSt b).reg r = s.reg r := rfl

@[simp] theorem State.setSt_byteAt (s : State) (b : Byte) (k : Nat) :
    (s.setSt b).byteAt k = s.byteAt k := rfl

@[simp] theorem State.setSt_pressed (s : State) (b : Byte) (k : Reg) :
    (s.setSt b).pressed k = s.pressed k := rfl

@[simp] theorem State.setSt_base (s : State) (b : Byte) :
    (s.setSt b).base = s.base := rfl

@[simp] theorem State.setSt_pixel (s : State) (b : Byte) (px py : Nat) :
    (s.setSt b).pixel px py = s.pixel px py := rfl

/-! ### `setFb` -/

@[simp] theorem State.setFb_v (s : State) (f : Framebuffer) :
    (s.setFb f).v = s.v := rfl

@[simp] theorem State.setFb_i (s : State) (f : Framebuffer) :
    (s.setFb f).i = s.i := rfl

@[simp] theorem State.setFb_pc (s : State) (f : Framebuffer) :
    (s.setFb f).pc = s.pc := rfl

@[simp] theorem State.setFb_sp (s : State) (f : Framebuffer) :
    (s.setFb f).sp = s.sp := rfl

@[simp] theorem State.setFb_stack (s : State) (f : Framebuffer) :
    (s.setFb f).stack = s.stack := rfl

@[simp] theorem State.setFb_dt (s : State) (f : Framebuffer) :
    (s.setFb f).dt = s.dt := rfl

@[simp] theorem State.setFb_st (s : State) (f : Framebuffer) :
    (s.setFb f).st = s.st := rfl

@[simp] theorem State.setFb_fb (s : State) (f : Framebuffer) :
    (s.setFb f).fb = f := rfl

@[simp] theorem State.setFb_key (s : State) (f : Framebuffer) :
    (s.setFb f).key = s.key := rfl

@[simp] theorem State.setFb_mem (s : State) (f : Framebuffer) :
    (s.setFb f).mem = s.mem := rfl

@[simp] theorem State.setFb_status (s : State) (f : Framebuffer) :
    (s.setFb f).status = s.status := rfl

@[simp] theorem State.setFb_cfg (s : State) (f : Framebuffer) :
    (s.setFb f).cfg = s.cfg := rfl

@[simp] theorem State.setFb_draws (s : State) (f : Framebuffer) :
    (s.setFb f).draws = s.draws := rfl

@[simp] theorem State.setFb_reg (s : State) (f : Framebuffer) (r : Reg) :
    (s.setFb f).reg r = s.reg r := rfl

@[simp] theorem State.setFb_byteAt (s : State) (f : Framebuffer) (k : Nat) :
    (s.setFb f).byteAt k = s.byteAt k := rfl

@[simp] theorem State.setFb_pressed (s : State) (f : Framebuffer) (k : Reg) :
    (s.setFb f).pressed k = s.pressed k := rfl

@[simp] theorem State.setFb_base (s : State) (f : Framebuffer) :
    (s.setFb f).base = s.base := rfl

/-! ### `setKey` -/

@[simp] theorem State.setKey_v (s : State) (x : Reg) (b : Bool) :
    (s.setKey x b).v = s.v := rfl

@[simp] theorem State.setKey_i (s : State) (x : Reg) (b : Bool) :
    (s.setKey x b).i = s.i := rfl

@[simp] theorem State.setKey_pc (s : State) (x : Reg) (b : Bool) :
    (s.setKey x b).pc = s.pc := rfl

@[simp] theorem State.setKey_sp (s : State) (x : Reg) (b : Bool) :
    (s.setKey x b).sp = s.sp := rfl

@[simp] theorem State.setKey_stack (s : State) (x : Reg) (b : Bool) :
    (s.setKey x b).stack = s.stack := rfl

@[simp] theorem State.setKey_dt (s : State) (x : Reg) (b : Bool) :
    (s.setKey x b).dt = s.dt := rfl

@[simp] theorem State.setKey_st (s : State) (x : Reg) (b : Bool) :
    (s.setKey x b).st = s.st := rfl

@[simp] theorem State.setKey_fb (s : State) (x : Reg) (b : Bool) :
    (s.setKey x b).fb = s.fb := rfl

@[simp] theorem State.setKey_key (s : State) (x : Reg) (b : Bool) :
    (s.setKey x b).key = s.key.set x.val b x.isLt := rfl

@[simp] theorem State.setKey_mem (s : State) (x : Reg) (b : Bool) :
    (s.setKey x b).mem = s.mem := rfl

@[simp] theorem State.setKey_status (s : State) (x : Reg) (b : Bool) :
    (s.setKey x b).status = s.status := rfl

@[simp] theorem State.setKey_cfg (s : State) (x : Reg) (b : Bool) :
    (s.setKey x b).cfg = s.cfg := rfl

@[simp] theorem State.setKey_draws (s : State) (x : Reg) (b : Bool) :
    (s.setKey x b).draws = s.draws := rfl

@[simp] theorem State.setKey_reg (s : State) (x : Reg) (b : Bool) (r : Reg) :
    (s.setKey x b).reg r = s.reg r := rfl

@[simp] theorem State.setKey_byteAt (s : State) (x : Reg) (b : Bool) (k : Nat) :
    (s.setKey x b).byteAt k = s.byteAt k := rfl

@[simp] theorem State.setKey_base (s : State) (x : Reg) (b : Bool) :
    (s.setKey x b).base = s.base := rfl

@[simp] theorem State.setKey_pixel (s : State) (x : Reg) (b : Bool) (px py : Nat) :
    (s.setKey x b).pixel px py = s.pixel px py := rfl

/-! ### `drawn` -/

@[simp] theorem State.drawn_v (s : State) :
    s.drawn.v = s.v := rfl

@[simp] theorem State.drawn_i (s : State) :
    s.drawn.i = s.i := rfl

@[simp] theorem State.drawn_pc (s : State) :
    s.drawn.pc = s.pc := rfl

@[simp] theorem State.drawn_sp (s : State) :
    s.drawn.sp = s.sp := rfl

@[simp] theorem State.drawn_stack (s : State) :
    s.drawn.stack = s.stack := rfl

@[simp] theorem State.drawn_dt (s : State) :
    s.drawn.dt = s.dt := rfl

@[simp] theorem State.drawn_st (s : State) :
    s.drawn.st = s.st := rfl

@[simp] theorem State.drawn_fb (s : State) :
    s.drawn.fb = s.fb := rfl

@[simp] theorem State.drawn_key (s : State) :
    s.drawn.key = s.key := rfl

@[simp] theorem State.drawn_mem (s : State) :
    s.drawn.mem = s.mem := rfl

@[simp] theorem State.drawn_status (s : State) :
    s.drawn.status = s.status := rfl

@[simp] theorem State.drawn_cfg (s : State) :
    s.drawn.cfg = s.cfg := rfl

@[simp] theorem State.drawn_draws (s : State) :
    s.drawn.draws = s.draws + 1 := rfl

@[simp] theorem State.drawn_reg (s : State) (r : Reg) :
    s.drawn.reg r = s.reg r := rfl

@[simp] theorem State.drawn_byteAt (s : State) (k : Nat) :
    s.drawn.byteAt k = s.byteAt k := rfl

@[simp] theorem State.drawn_pressed (s : State) (k : Reg) :
    s.drawn.pressed k = s.pressed k := rfl

@[simp] theorem State.drawn_base (s : State) :
    s.drawn.base = s.base := rfl

@[simp] theorem State.drawn_pixel (s : State) (px py : Nat) :
    s.drawn.pixel px py = s.pixel px py := rfl

/-! ### `advance` -/

@[simp] theorem State.advance_v (s : State) :
    s.advance.v = s.v := rfl

@[simp] theorem State.advance_i (s : State) :
    s.advance.i = s.i := rfl

@[simp] theorem State.advance_pc (s : State) :
    s.advance.pc = s.pc + 2 := rfl

@[simp] theorem State.advance_sp (s : State) :
    s.advance.sp = s.sp := rfl

@[simp] theorem State.advance_stack (s : State) :
    s.advance.stack = s.stack := rfl

@[simp] theorem State.advance_dt (s : State) :
    s.advance.dt = s.dt := rfl

@[simp] theorem State.advance_st (s : State) :
    s.advance.st = s.st := rfl

@[simp] theorem State.advance_fb (s : State) :
    s.advance.fb = s.fb := rfl

@[simp] theorem State.advance_key (s : State) :
    s.advance.key = s.key := rfl

@[simp] theorem State.advance_mem (s : State) :
    s.advance.mem = s.mem := rfl

@[simp] theorem State.advance_status (s : State) :
    s.advance.status = s.status := rfl

@[simp] theorem State.advance_cfg (s : State) :
    s.advance.cfg = s.cfg := rfl

@[simp] theorem State.advance_draws (s : State) :
    s.advance.draws = s.draws := rfl

@[simp] theorem State.advance_reg (s : State) (r : Reg) :
    s.advance.reg r = s.reg r := rfl

@[simp] theorem State.advance_byteAt (s : State) (k : Nat) :
    s.advance.byteAt k = s.byteAt k := rfl

@[simp] theorem State.advance_pressed (s : State) (k : Reg) :
    s.advance.pressed k = s.pressed k := rfl

@[simp] theorem State.advance_base (s : State) :
    s.advance.base = s.base := rfl

@[simp] theorem State.advance_pixel (s : State) (px py : Nat) :
    s.advance.pixel px py = s.pixel px py := rfl

/-! ### `takeFault` -/

@[simp] theorem State.takeFault_v (s : State) (kind : FaultKind) (addr : Word) (word : Option Word) (info : Word) :
    (s.takeFault kind addr word info).v = s.v := rfl

@[simp] theorem State.takeFault_i (s : State) (kind : FaultKind) (addr : Word) (word : Option Word) (info : Word) :
    (s.takeFault kind addr word info).i = s.i := rfl

@[simp] theorem State.takeFault_pc (s : State) (kind : FaultKind) (addr : Word) (word : Option Word) (info : Word) :
    (s.takeFault kind addr word info).pc = addr := rfl

@[simp] theorem State.takeFault_sp (s : State) (kind : FaultKind) (addr : Word) (word : Option Word) (info : Word) :
    (s.takeFault kind addr word info).sp = s.sp := rfl

@[simp] theorem State.takeFault_stack (s : State) (kind : FaultKind) (addr : Word) (word : Option Word) (info : Word) :
    (s.takeFault kind addr word info).stack = s.stack := rfl

@[simp] theorem State.takeFault_dt (s : State) (kind : FaultKind) (addr : Word) (word : Option Word) (info : Word) :
    (s.takeFault kind addr word info).dt = s.dt := rfl

@[simp] theorem State.takeFault_st (s : State) (kind : FaultKind) (addr : Word) (word : Option Word) (info : Word) :
    (s.takeFault kind addr word info).st = s.st := rfl

@[simp] theorem State.takeFault_fb (s : State) (kind : FaultKind) (addr : Word) (word : Option Word) (info : Word) :
    (s.takeFault kind addr word info).fb = s.fb := rfl

@[simp] theorem State.takeFault_key (s : State) (kind : FaultKind) (addr : Word) (word : Option Word) (info : Word) :
    (s.takeFault kind addr word info).key = s.key := rfl

@[simp] theorem State.takeFault_mem (s : State) (kind : FaultKind) (addr : Word) (word : Option Word) (info : Word) :
    (s.takeFault kind addr word info).mem = s.mem := rfl

@[simp] theorem State.takeFault_status (s : State) (kind : FaultKind) (addr : Word) (word : Option Word) (info : Word) :
    (s.takeFault kind addr word info).status = .faulted ⟨kind, addr, word, info⟩ := rfl

@[simp] theorem State.takeFault_cfg (s : State) (kind : FaultKind) (addr : Word) (word : Option Word) (info : Word) :
    (s.takeFault kind addr word info).cfg = s.cfg := rfl

@[simp] theorem State.takeFault_draws (s : State) (kind : FaultKind) (addr : Word) (word : Option Word) (info : Word) :
    (s.takeFault kind addr word info).draws = s.draws := rfl

@[simp] theorem State.takeFault_reg (s : State) (kind : FaultKind) (addr : Word) (word : Option Word) (info : Word) (r : Reg) :
    (s.takeFault kind addr word info).reg r = s.reg r := rfl

@[simp] theorem State.takeFault_byteAt (s : State) (kind : FaultKind) (addr : Word) (word : Option Word) (info : Word) (k : Nat) :
    (s.takeFault kind addr word info).byteAt k = s.byteAt k := rfl

@[simp] theorem State.takeFault_pressed (s : State) (kind : FaultKind) (addr : Word) (word : Option Word) (info : Word) (k : Reg) :
    (s.takeFault kind addr word info).pressed k = s.pressed k := rfl

@[simp] theorem State.takeFault_base (s : State) (kind : FaultKind) (addr : Word) (word : Option Word) (info : Word) :
    (s.takeFault kind addr word info).base = s.base := rfl

@[simp] theorem State.takeFault_pixel (s : State) (kind : FaultKind) (addr : Word) (word : Option Word) (info : Word) (px py : Nat) :
    (s.takeFault kind addr word info).pixel px py = s.pixel px py := rfl

/-! ### `tick` -/

@[simp] theorem State.tick_v (s : State) :
    s.tick.v = s.v := rfl

@[simp] theorem State.tick_i (s : State) :
    s.tick.i = s.i := rfl

@[simp] theorem State.tick_pc (s : State) :
    s.tick.pc = s.pc := rfl

@[simp] theorem State.tick_sp (s : State) :
    s.tick.sp = s.sp := rfl

@[simp] theorem State.tick_stack (s : State) :
    s.tick.stack = s.stack := rfl

@[simp] theorem State.tick_dt (s : State) :
    s.tick.dt = tickTimer s.dt := rfl

@[simp] theorem State.tick_st (s : State) :
    s.tick.st = tickTimer s.st := rfl

@[simp] theorem State.tick_fb (s : State) :
    s.tick.fb = s.fb := rfl

@[simp] theorem State.tick_key (s : State) :
    s.tick.key = s.key := rfl

@[simp] theorem State.tick_mem (s : State) :
    s.tick.mem = s.mem := rfl

@[simp] theorem State.tick_status (s : State) :
    s.tick.status = s.status := rfl

@[simp] theorem State.tick_cfg (s : State) :
    s.tick.cfg = s.cfg := rfl

@[simp] theorem State.tick_draws (s : State) :
    s.tick.draws = s.draws := rfl

@[simp] theorem State.tick_reg (s : State) (r : Reg) :
    s.tick.reg r = s.reg r := rfl

@[simp] theorem State.tick_byteAt (s : State) (k : Nat) :
    s.tick.byteAt k = s.byteAt k := rfl

@[simp] theorem State.tick_pressed (s : State) (k : Reg) :
    s.tick.pressed k = s.pressed k := rfl

@[simp] theorem State.tick_base (s : State) :
    s.tick.base = s.base := rfl

@[simp] theorem State.tick_pixel (s : State) (px py : Nat) :
    s.tick.pixel px py = s.pixel px py := rfl

/-! ### Reading what an update wrote -/

theorem State.reg_setReg (s : State) (x r : Reg) (b : Byte) :
    (s.setReg x b).reg r = if r = x then b else s.reg r := by
  show (s.v.set x.val b x.isLt)[r.val] = _
  rw [Vector.getElem_set]
  by_cases h : r = x
  · simp [h]
  · have : x.val ≠ r.val := fun e => h (Fin.ext e.symm)
    rw [if_neg this, if_neg h]
    rfl

@[simp] theorem State.reg_setReg_same (s : State) (x : Reg) (b : Byte) : (s.setReg x b).reg x = b := by
  rw [State.reg_setReg, if_pos rfl]

theorem State.reg_setReg_other (s : State) (x r : Reg) (b : Byte) (h : r ≠ x) : (s.setReg x b).reg r = s.reg r := by
  rw [State.reg_setReg, if_neg h]

theorem State.pressed_setKey (s : State) (x r : Reg) (b : Bool) :
    (s.setKey x b).pressed r = if r = x then b else s.pressed r := by
  show (s.key.set x.val b x.isLt)[r.val] = _
  rw [Vector.getElem_set]
  by_cases h : r = x
  · simp [h]
  · have : x.val ≠ r.val := fun e => h (Fin.ext e.symm)
    rw [if_neg this, if_neg h]
    rfl

/-- A flag write leaves VF holding 0 or 1 and every other register alone. -/
theorem State.reg_setFlag (s : State) (c : Bool) (r : Reg) :
    (s.setFlag c).reg r = if r = flagReg then flagByte c else s.reg r := State.reg_setReg s flagReg r (flagByte c)

/-- The write order of R106: the flag last. -/
theorem State.reg_setRegFlag (s : State) (x r : Reg) (b : Byte) (c : Bool) :
    (s.setRegFlag x b c).reg r = if r = flagReg then flagByte c else if r = x then b else s.reg r := by
  show ((s.setReg x b).setFlag c).reg r = _
  rw [State.reg_setFlag, State.reg_setReg]

theorem State.skipIf_eq_setPc (s : State) (c : Bool) : s.skipIf c = s.setPc (if c then s.pc + 2 else s.pc) := by
  cases c <;> rfl

end Sys2Proof.Machine
end

