-- ==== Sys2Proof/Laws/Memory.lean ====
section
/-! SUPPORT. The laws of memory: what a read returns after a write, and that every operation keeps the canonical form. -/

namespace Sys2Proof.Machine

theorem Memory.lookup_insert (m : Memory) (a k : Nat) (b : Byte) :
    Memory.lookup (Memory.insert m a b) k = if k = a then some b else Memory.lookup m k := by
  induction m with
  | nil => rfl
  | cons c m ih =>
    obtain ⟨c, d⟩ := c
    simp only [Memory.insert]
    split
    · simp [Memory.lookup]
    · split
      · rename_i h
        subst h
        simp only [Memory.lookup]
        split <;> rfl
      · simp only [Memory.lookup, ih]
        split
        · rename_i h1 h2 h3
          rw [if_neg (by omega)]
        · rfl

theorem Memory.lookup_erase_other (m : Memory) (a k : Nat) (h : k ≠ a) :
    Memory.lookup (Memory.erase m a) k = Memory.lookup m k := by
  induction m with
  | nil => rfl
  | cons c m ih =>
    obtain ⟨c, d⟩ := c
    simp only [Memory.erase]
    split
    · rename_i h1
      simp only [Memory.lookup]
      rw [if_neg (by omega), ih]
    · simp only [Memory.lookup, ih]

theorem Memory.lookup_below (c : Config) (lo k : Nat) (m : Memory) (h : Memory.wfFrom c lo m = true) (hk : k < lo) :
    Memory.lookup m k = none := by
  induction m generalizing lo with
  | nil => rfl
  | cons e m ih =>
    obtain ⟨a, b⟩ := e
    simp only [Memory.wfFrom, Bool.and_eq_true, decide_eq_true_eq] at h
    simp only [Memory.lookup]
    rw [if_neg (by omega)]
    exact ih (a + 1) h.2 (by omega)

theorem Memory.lookup_erase_same (m : Memory) (a : Nat) : Memory.lookup (Memory.erase m a) a = none := by
  induction m with
  | nil => rfl
  | cons e m ih =>
    obtain ⟨k, b⟩ := e
    simp only [Memory.erase]
    split
    · exact ih
    · rename_i h1
      simp only [Memory.lookup]
      rw [if_neg h1, ih]

/-- A write leaves every other address alone. -/
theorem Memory.read_write_other (c : Config) (m : Memory) (a k : Nat) (b : Byte) (h : k ≠ a) :
    Memory.read c (Memory.write c m a b) k = Memory.read c m k := by
  simp only [Memory.read, Memory.write]
  split
  · rw [Memory.lookup_erase_other m a k h]
  · rw [Memory.lookup_insert, if_neg h]

/-- A read returns what was written. -/
theorem Memory.read_write_same (c : Config) (m : Memory) (a : Nat) (b : Byte) :
    Memory.read c (Memory.write c m a b) a = b := by
  simp only [Memory.read, Memory.write]
  split
  · rename_i hb
    rw [Memory.lookup_erase_same m a]
    exact hb.symm
  · rw [Memory.lookup_insert, if_pos rfl]
    rfl

theorem Memory.wfFrom_weaken (c : Config) (lo lo' : Nat) (m : Memory) (h : Memory.wfFrom c lo m = true) (hl : lo' ≤ lo) :
    Memory.wfFrom c lo' m = true := by
  cases m with
  | nil => rfl
  | cons e m =>
    obtain ⟨a, b⟩ := e
    simp only [Memory.wfFrom, Bool.and_eq_true, decide_eq_true_eq] at h ⊢
    exact ⟨⟨⟨by omega, h.1.1.2⟩, h.1.2⟩, h.2⟩

theorem Memory.wfFrom_erase (c : Config) (lo a : Nat) (m : Memory) (h : Memory.wfFrom c lo m = true) :
    Memory.wfFrom c lo (Memory.erase m a) = true := by
  induction m generalizing lo with
  | nil => rfl
  | cons e m ih =>
    obtain ⟨k, b⟩ := e
    simp only [Memory.erase]
    simp only [Memory.wfFrom, Bool.and_eq_true, decide_eq_true_eq] at h
    split
    · exact Memory.wfFrom_weaken c (k + 1) lo _ (ih (k + 1) h.2) (by omega)
    · simp only [Memory.wfFrom, Bool.and_eq_true, decide_eq_true_eq]
      exact ⟨h.1, ih (k + 1) h.2⟩

theorem Memory.wfFrom_insert (c : Config) (lo a : Nat) (b : Byte) (m : Memory) (h : Memory.wfFrom c lo m = true)
    (hlo : lo ≤ a) (ha : a < memSize) (hb : b ≠ resetByte c a) :
    Memory.wfFrom c lo (Memory.insert m a b) = true := by
  induction m generalizing lo with
  | nil =>
    simp only [Memory.insert, Memory.wfFrom, Bool.and_eq_true, decide_eq_true_eq]
    exact ⟨⟨⟨hlo, ha⟩, hb⟩, trivial⟩
  | cons e m ih =>
    obtain ⟨k, d⟩ := e
    simp only [Memory.insert]
    simp only [Memory.wfFrom, Bool.and_eq_true, decide_eq_true_eq] at h
    split
    · simp only [Memory.wfFrom, Bool.and_eq_true, decide_eq_true_eq]
      exact ⟨⟨⟨hlo, ha⟩, hb⟩, ⟨⟨by omega, h.1.1.2⟩, h.1.2⟩, h.2⟩
    · split
      · rename_i h2
        subst h2
        simp only [Memory.wfFrom, Bool.and_eq_true, decide_eq_true_eq]
        exact ⟨⟨⟨hlo, ha⟩, hb⟩, h.2⟩
      · simp only [Memory.wfFrom, Bool.and_eq_true, decide_eq_true_eq]
        exact ⟨h.1, ih (k + 1) h.2 (by omega)⟩

/-- A write inside the memory keeps the canonical form. -/
theorem Memory.wf_write (c : Config) (m : Memory) (a : Nat) (b : Byte) (h : Memory.wf c m = true) (ha : a < memSize) :
    Memory.wf c (Memory.write c m a b) = true := by
  simp only [Memory.write]
  split
  · exact Memory.wfFrom_erase c 0 a m h
  · rename_i hb
    exact Memory.wfFrom_insert c 0 a b m h (Nat.zero_le a) ha hb

/-- Two memories in canonical form that read the same everywhere are the same list. -/
theorem Memory.ext_of_read (c : Config) (m m' : Memory) (h : Memory.wf c m = true) (h' : Memory.wf c m' = true)
    (hr : ∀ a, Memory.read c m a = Memory.read c m' a) : m = m' := by
  have key : ∀ lo (m m' : Memory), Memory.wfFrom c lo m = true → Memory.wfFrom c lo m' = true →
      (∀ a, Memory.read c m a = Memory.read c m' a) → m = m' := by
    intro lo m
    induction m generalizing lo with
    | nil =>
      intro m' _ h' hr
      cases m' with
      | nil => rfl
      | cons e m' =>
        obtain ⟨a, b⟩ := e
        simp only [Memory.wfFrom, Bool.and_eq_true, decide_eq_true_eq] at h'
        have := hr a
        simp only [Memory.read, Memory.lookup, if_true, Option.getD_none, Option.getD_some] at this
        exact absurd this.symm h'.1.2
    | cons e m ih =>
      obtain ⟨a, b⟩ := e
      intro m' h h' hr
      have hw := h
      simp only [Memory.wfFrom, Bool.and_eq_true, decide_eq_true_eq] at h
      cases m' with
      | nil =>
        have := hr a
        simp only [Memory.read, Memory.lookup, if_true, Option.getD_none, Option.getD_some] at this
        exact absurd this h.1.2
      | cons e' m' =>
        obtain ⟨a', b'⟩ := e'
        have hw' := h'
        simp only [Memory.wfFrom, Bool.and_eq_true, decide_eq_true_eq] at h'
        have haa : a = a' := by
          rcases Nat.lt_trichotomy a a' with hlt | heq | hgt
          · have := hr a
            simp only [Memory.read, Memory.lookup, if_true, Option.getD_some] at this
            rw [if_neg (by omega), Memory.lookup_below c (a' + 1) a m' h'.2 (by omega)] at this
            exact absurd this h.1.2
          · exact heq
          · have := hr a'
            simp only [Memory.read, Memory.lookup, if_true, Option.getD_some] at this
            rw [if_neg (by omega), Memory.lookup_below c (a + 1) a' m h.2 (by omega)] at this
            exact absurd this.symm h'.1.2
        subst haa
        have hb := hr a
        simp only [Memory.read, Memory.lookup, if_true, Option.getD_some] at hb
        subst hb
        have hm : m = m' := by
          refine ih (a + 1) m' h.2 h'.2 (fun k => ?_)
          by_cases hk : k = a
          · subst hk
            simp only [Memory.read, Memory.lookup_below c (k + 1) k m h.2 (by omega),
              Memory.lookup_below c (k + 1) k m' h'.2 (by omega)]
          · have := hr k
            simp only [Memory.read, Memory.lookup, if_neg hk] at this
            exact this
        rw [hm]
  exact key 0 m m' h h' hr

/-! ### The same, of a state -/

theorem State.byteAt_setByte_other (s : State) (a k : Nat) (b : Byte) (h : k ≠ a) :
    (s.setByte a b).byteAt k = s.byteAt k := Memory.read_write_other s.cfg s.mem a k b h

theorem State.byteAt_setByte_same (s : State) (a : Nat) (b : Byte) : (s.setByte a b).byteAt a = b :=
  Memory.read_write_same s.cfg s.mem a b

theorem State.wf_setByte (s : State) (a : Nat) (b : Byte) (h : Memory.wf s.cfg s.mem = true) (ha : a < memSize) :
    Memory.wf (s.setByte a b).cfg (s.setByte a b).mem = true := Memory.wf_write s.cfg s.mem a b h ha

/-- Writing bytes changes memory and nothing else. -/
theorem State.writeBytes_eq (s : State) (a : Nat) (bs : List Byte) :
    s.writeBytes a bs = { s with mem := (s.writeBytes a bs).mem } := by
  induction bs generalizing s a with
  | nil => rfl
  | cons b bs ih =>
    show (s.setByte a b).writeBytes (a + 1) bs = _
    rw [ih]
    rfl

theorem State.wf_writeBytes (s : State) (a : Nat) (bs : List Byte) (h : Memory.wf s.cfg s.mem = true)
    (ha : a + bs.length ≤ memSize) : Memory.wf (s.writeBytes a bs).cfg (s.writeBytes a bs).mem = true := by
  induction bs generalizing s a with
  | nil => exact h
  | cons b bs ih =>
    simp only [List.length_cons] at ha
    exact ih (s.setByte a b) (a + 1) (s.wf_setByte a b h (by omega)) (by omega)

/-- Bytes outside the ones written read as before. -/
theorem State.byteAt_writeBytes_outside (s : State) (a : Nat) (bs : List Byte) (k : Nat)
    (hk : k < a ∨ a + bs.length ≤ k) : (s.writeBytes a bs).byteAt k = s.byteAt k := by
  induction bs generalizing s a with
  | nil => rfl
  | cons b bs ih =>
    simp only [List.length_cons] at hk
    show ((s.setByte a b).writeBytes (a + 1) bs).byteAt k = _
    rw [ih (s.setByte a b) (a + 1) (by omega), State.byteAt_setByte_other s a k b (by omega)]

/-- The bytes written, in their order, the first at the lowest address. -/
theorem State.byteAt_writeBytes_inside (s : State) (a : Nat) (bs : List Byte) (j : Nat) (hj : j < bs.length) :
    (s.writeBytes a bs).byteAt (a + j) = bs[j] := by
  induction bs generalizing s a j with
  | nil => exact absurd hj (Nat.not_lt_zero j)
  | cons b bs ih =>
    simp only [List.length_cons] at hj
    show ((s.setByte a b).writeBytes (a + 1) bs).byteAt (a + j) = _
    cases j with
    | zero =>
      rw [State.byteAt_writeBytes_outside _ _ _ _ (by omega)]
      exact State.byteAt_setByte_same s a b
    | succ j =>
      have := ih (s.setByte a b) (a + 1) j (by omega)
      rw [show a + (j + 1) = a + 1 + j by omega, this]
      rfl

end Sys2Proof.Machine
end

