-- ==== Sys2Proof/Laws/Ops.lean ====
section
/-! SUPPORT. One lemma per shared operation that says what it does, for the proofs to cite instead of unfolding it:
arithmetic, bounds check, stack, keys, register ranges and the fetch. -/

namespace Sys2Proof.Machine

/-! ### Arithmetic and flags (42_alu.md) -/

theorem sumByte_toNat (a b : Byte) : (sumByte a b).toNat = (a.toNat + b.toNat) % 256 := by
  simp only [sumByte, BitVec.toNat_ofNat]

theorem diffByte_toNat (a b : Byte) : (diffByte a b).toNat = (a.toNat + 256 - b.toNat) % 256 := by
  have := a.isLt
  have := b.isLt
  simp only [diffByte, BitVec.toNat_ofInt]
  omega

theorem halfByte_toNat (a : Byte) : (halfByte a).toNat = a.toNat / 2 := by
  have := a.isLt
  simp only [halfByte, BitVec.toNat_ofNat]
  omega

theorem doubleByte_toNat (a : Byte) : (doubleByte a).toNat = a.toNat * 2 % 256 := by
  simp only [doubleByte, BitVec.toNat_ofNat]

theorem flagByte_toNat (c : Bool) : (flagByte c).toNat = if c then 1 else 0 := by cases c <;> rfl

theorem lowBitOut_eq (a : Byte) : lowBitOut a = decide (a.toNat % 2 = 1) := by
  simp only [lowBitOut, BitVec.getLsbD, Nat.testBit_zero]

theorem highBitOut_eq (a : Byte) : highBitOut a = decide (a.toNat / 128 = 1) := by
  have := a.isLt
  simp only [highBitOut, BitVec.getLsbD, Nat.testBit_eq_decide_div_mod_eq]
  congr 1
  apply propext
  omega

theorem tickTimer_toNat (b : Byte) : (tickTimer b).toNat = b.toNat - 1 := by
  have := b.isLt
  unfold tickTimer
  split
  · rename_i h
    subst h
    rfl
  · rename_i h
    have : b.toNat ≠ 0 := fun e => h (BitVec.eq_of_toNat_eq e)
    have h1 : (1 : Byte).toNat = 1 := rfl
    rw [BitVec.toNat_sub, h1]
    omega

theorem zextByte_toNat (b : Byte) : (zextByte b).toNat = b.toNat := by
  have := b.isLt
  simp only [BitVec.toNat_setWidth]
  omega

theorem zextAddr_toNat (a : Addr12) : (zextAddr a).toNat = a.toNat := by
  have := a.isLt
  simp only [BitVec.toNat_setWidth]
  omega

/-! ### The bounds check (43_index_memory.md R169) -/

theorem firstOutOfRange_none (base : Word) (len : Nat) (h : len = 0 ∨ base.toNat + len ≤ 0x1000) :
    firstOutOfRange base len = none := by
  rw [firstOutOfRange, if_neg (by omega)]

theorem firstOutOfRange_some (base : Word) (len : Nat) (h0 : 0 < len) (h : 0x1000 < base.toNat + len) :
    firstOutOfRange base len = some (BitVec.ofNat 16 (max base.toNat 0x1000)) := by
  rw [firstOutOfRange, if_pos (by omega)]

theorem firstOutOfRange_eq_none (base : Word) (len : Nat) (h : firstOutOfRange base len = none) :
    len = 0 ∨ base.toNat + len ≤ 0x1000 := by
  unfold firstOutOfRange at h
  split at h
  · exact absurd h (by simp)
  · omega

/-- The check fails exactly on an access that runs past 0xFFF, and names the first address out of range. -/
theorem firstOutOfRange_eq_some (base e : Word) (len : Nat) (h : firstOutOfRange base len = some e) :
    0 < len ∧ 0x1000 < base.toNat + len ∧ e.toNat = max base.toNat 0x1000 := by
  have hb := base.isLt
  unfold firstOutOfRange at h
  split at h
  · cases h
    simp only [BitVec.toNat_ofNat]
    omega
  · cases h

/-! ### The stack (10_state.md R28) -/

/-- A push below the limit: the entry at the old `sp`, and `sp` one higher. -/
theorem State.push_spec (s : State) (w : Word) (h : s.sp.val < 16) :
    s.push w = some { s with stack := s.stack.set s.sp.val w h, sp := ⟨s.sp.val + 1, Nat.succ_lt_succ h⟩ } := by
  rw [State.push, dif_pos h]

theorem State.push_full (s : State) (w : Word) (h : s.sp.val = 16) : s.push w = none := by
  rw [State.push, dif_neg (by omega)]

/-- A pop of a stack in use: the entry below the old `sp`, and `sp` one lower. -/
theorem State.pop_spec (s : State) (h : 0 < s.sp.val) :
    s.pop = some (s.stack[s.sp.val - 1]'(by have := s.sp.isLt; omega),
      { s with sp := ⟨s.sp.val - 1, by have := s.sp.isLt; omega⟩ }) := by
  rw [State.pop, dif_pos h]

theorem State.pop_empty (s : State) (h : s.sp.val = 0) : s.pop = none := by
  rw [State.pop, dif_neg (by omega)]

/-! ### Keys (45_keys_timers.md) -/

theorem keyNumber_some (b : Byte) (h : b.toNat < 16) : keyNumber b = some ⟨b.toNat, h⟩ := by rw [keyNumber, dif_pos h]

theorem keyNumber_none (b : Byte) (h : 16 ≤ b.toNat) : keyNumber b = none := by rw [keyNumber, dif_neg (by omega)]

theorem mem_allRegs (r : Reg) : r ∈ allRegs := by revert r; decide

theorem State.lowestKey_eq_none (s : State) : s.lowestKey = none ↔ ∀ k, s.pressed k = false := by
  rw [State.lowestKey, List.find?_eq_none]
  constructor
  · intro h k
    have := h k (mem_allRegs k)
    simpa using this
  · intro h k _
    rw [h k]
    simp

/-- The first of an ascending list that satisfies a test is the least. -/
theorem find?_least (p : Reg → Bool) (l : List Reg) (hs : l.Pairwise (· < ·)) (k : Reg) (h : l.find? p = some k) :
    p k = true ∧ ∀ j ∈ l, p j = true → k ≤ j := by
  induction l with
  | nil => simp at h
  | cons a l ih =>
    rw [List.pairwise_cons] at hs
    rw [List.find?_cons] at h
    split at h
    · rename_i ha
      cases h
      refine ⟨ha, fun j hj _ => ?_⟩
      rcases List.mem_cons.mp hj with rfl | hj
      · exact Nat.le_refl _
      · exact Nat.le_of_lt (hs.1 j hj)
    · rename_i ha
      obtain ⟨hk, hl⟩ := ih hs.2 h
      refine ⟨hk, fun j hj hp => ?_⟩
      rcases List.mem_cons.mp hj with rfl | hj
      · rw [hp] at ha
        cases ha
      · exact hl j hj hp

/-- The key FX0A takes: pressed, and none below it is. -/
theorem State.lowestKey_eq_some (s : State) (k : Reg) (h : s.lowestKey = some k) :
    s.pressed k = true ∧ ∀ j, s.pressed j = true → k ≤ j := by
  obtain ⟨h1, h2⟩ := find?_least (fun k => s.pressed k) allRegs (by decide) k h
  exact ⟨h1, fun j hj => h2 j (mem_allRegs j) hj⟩

/-! ### Register ranges (43_index_memory.md R174, R175) -/

theorem mem_regsUpTo (x r : Reg) : r ∈ regsUpTo x ↔ r ≤ x := by
  simp only [regsUpTo, List.mem_filter, mem_allRegs, true_and, decide_eq_true_eq]

theorem regsUpTo_length (x : Reg) : (regsUpTo x).length = x.val + 1 := by revert x; decide

/-- The registers V0 to VX stand in ascending order: the j-th is Vj. -/
theorem regsUpTo_getElem? (x r : Reg) (h : r ≤ x) : (regsUpTo x)[r.val]? = some r := by revert x r; decide

/-- A load changes general registers and nothing else. -/
theorem State.loadRegs_eq (s : State) (base : Nat) (rs : List Reg) :
    s.loadRegs base rs = { s with v := (s.loadRegs base rs).v } := by
  induction rs generalizing s with
  | nil => rfl
  | cons r rs ih =>
    show (s.setReg r (s.byteAt (base + r.val))).loadRegs base rs = _
    rw [ih]
    rfl

theorem State.loadRegs_byteAt (s : State) (base : Nat) (rs : List Reg) (a : Nat) :
    (s.loadRegs base rs).byteAt a = s.byteAt a := by
  rw [State.loadRegs_eq]
  rfl

/-- Each register of the list holds its byte, every other register is as before. -/
theorem State.reg_loadRegs (s : State) (base : Nat) (rs : List Reg) (r : Reg) :
    (s.loadRegs base rs).reg r = if r ∈ rs then s.byteAt (base + r.val) else s.reg r := by
  induction rs generalizing s with
  | nil => simp [State.loadRegs]
  | cons q rs ih =>
    show ((s.setReg q (s.byteAt (base + q.val))).loadRegs base rs).reg r = _
    rw [ih, State.setReg_byteAt, State.reg_setReg]
    by_cases h1 : r ∈ rs
    · rw [if_pos h1, if_pos (List.mem_cons_of_mem _ h1)]
    · by_cases h2 : r = q
      · subst h2
        rw [if_neg h1, if_pos rfl, if_pos (List.mem_cons_self ..)]
      · rw [if_neg h1, if_neg h2, if_neg (by simp [h1, h2])]

/-! ### The fetch (40_step.md R101) -/

theorem memRead_ok (s : State) (a : Nat) (h : a ≤ 0xFFF) : memRead s a = some (s.byteAt a) := by
  rw [memRead, if_neg (by omega)]

theorem memRead_out (s : State) (a : Nat) (h : 0xFFF < a) : memRead s a = none := by rw [memRead, if_pos h]

theorem fetch_ok (s : State) (h : s.pc.toNat ≤ 0xFFE) :
    fetch s = .ok (wordOfBytes (s.byteAt s.pc.toNat) (s.byteAt (s.pc.toNat + 1))) := by
  rw [fetch, memRead_ok s _ (by omega)]
  dsimp only
  rw [memRead_ok s _ (by omega)]

theorem fetch_second (s : State) (h : s.pc.toNat = 0xFFF) : fetch s = .error 0x1000 := by
  rw [fetch, memRead_ok s _ (by omega)]
  dsimp only
  rw [memRead_out s _ (by omega)]
  dsimp only
  congr 1
  apply BitVec.eq_of_toNat_eq
  rw [BitVec.toNat_add, h]
  rfl

theorem fetch_first (s : State) (h : 0xFFF < s.pc.toNat) : fetch s = .error s.pc := by
  rw [fetch, memRead_out s _ h]

/-- The rewind undoes the fetch's advance. -/
@[simp] theorem State.advance_pc_sub (s : State) : s.advance.pc - 2 = s.pc := by
  rw [State.advance_pc, BitVec.add_sub_cancel]

end Sys2Proof.Machine
end

