-- ==== Sys2Proof/Laws/Display.lean ====
section
/-! SUPPORT. What the sprite loop of DXYN does (44_display.md R191): it toggles exactly the pixels under the sprite's set bits,
and raises the collision flag when one of them was lit. -/

namespace Sys2Proof.Machine

theorem fbGet_blank (x y : Nat) : fbGet fbBlank x y = false := by
  by_cases h : y < 32
  · simp [fbGet, fbBlank, h]
  · simp [fbGet, fbBlank, h]

/-- A toggle inverts one pixel and leaves every other as it is. -/
theorem fbGet_fbToggle (f : Framebuffer) (px py x y : Nat) (hx : x < 64) (hy : y < 32) :
    fbGet (fbToggle f px py) x y = (fbGet f x y ^^ decide (x = px ∧ y = py)) := by
  unfold fbGet fbToggle
  by_cases hp : py < 32
  · rw [dif_pos hp, Vector.getElem?_eq_getElem hy, Vector.getElem?_eq_getElem hy, Vector.getElem_set]
    dsimp only
    by_cases he : py = y
    · subst he
      rw [if_pos rfl, BitVec.getLsbD_xor, BitVec.getLsbD_shiftLeft, BitVec.getLsbD_one, decide_eq_true hx]
      congr 1
      apply Bool.eq_iff_iff.mpr
      simp only [Bool.and_eq_true, Bool.not_eq_true', decide_eq_false_iff_not, decide_eq_true_eq, true_and, and_true]
      omega
    · rw [if_neg he, decide_eq_false (fun h => he h.2.symm), Bool.xor_false]
  · rw [dif_neg hp, decide_eq_false (by omega), Bool.xor_false]

/-- Two framebuffers with the same pixels are the same. -/
theorem fb_ext (f g : Framebuffer) (h : ∀ x y, x < 64 → y < 32 → fbGet f x y = fbGet g x y) : f = g := by
  apply Vector.ext
  intro y hy
  apply BitVec.eq_of_getLsbD_eq
  intro x hx
  have := h x y hx hy
  unfold fbGet at this
  rw [Vector.getElem?_eq_getElem hy, Vector.getElem?_eq_getElem hy] at this
  exact this

/-- `cv'` is `cv` with the pixels of `P` toggled, and collision raised when one of them was lit. -/
structure Toggles (P : Nat → Nat → Prop) (cv cv' : Canvas) : Prop where
  bit : ∀ x y, x < 64 → y < 32 → (fbGet cv'.1 x y = true ↔ (fbGet cv.1 x y = true ↔ ¬ P x y))
  hit : cv'.2 = true ↔ cv.2 = true ∨ ∃ x y, P x y ∧ fbGet cv.1 x y = true

theorem Toggles.nothing (P : Nat → Nat → Prop) (cv : Canvas) (h : ∀ x y, ¬ P x y) : Toggles P cv cv where
  bit x y _ _ := by simp [h x y]
  hit := by simp [h]

/-- Two draws of disjoint pixels are one draw of both. -/
theorem Toggles.comp {P Q R : Nat → Nat → Prop} {cv cv₁ cv₂ : Canvas} (h₁ : Toggles P cv cv₁) (h₂ : Toggles Q cv₁ cv₂)
    (hR : ∀ x y, R x y ↔ P x y ∨ Q x y) (hd : ∀ x y, P x y → ¬ Q x y) (hQ : ∀ x y, Q x y → x < 64 ∧ y < 32) :
    Toggles R cv cv₂ where
  bit x y hx hy := by
    rw [h₂.bit x y hx hy, h₁.bit x y hx hy, hR x y]
    have := hd x y
    tauto
  hit := by
    rw [h₂.hit, h₁.hit, or_assoc]
    refine or_congr_right ⟨?_, ?_⟩
    · rintro (⟨x, y, hp, hl⟩ | ⟨x, y, hq, hl⟩)
      · exact ⟨x, y, (hR x y).mpr (Or.inl hp), hl⟩
      · have hb := h₁.bit x y (hQ x y hq).1 (hQ x y hq).2
        exact ⟨x, y, (hR x y).mpr (Or.inr hq), (hb.mp hl).mpr (fun hp => hd x y hp hq)⟩
    · rintro ⟨x, y, hr, hl⟩
      rcases (hR x y).mp hr with hp | hq
      · exact Or.inl ⟨x, y, hp, hl⟩
      · have hb := h₁.bit x y (hQ x y hq).1 (hQ x y hq).2
        exact Or.inr ⟨x, y, hq, hb.mpr ⟨fun _ hp => hd x y hp hq, fun _ => hl⟩⟩

/-- One sprite bit toggles its pixel. -/
theorem drawPixel_toggles (cv : Canvas) (px py : Nat) :
    Toggles (fun x y => x = px ∧ y = py) cv (drawPixel cv px py) where
  bit x y hx hy := by
    show fbGet (fbToggle cv.1 px py) x y = true ↔ _
    rw [fbGet_fbToggle cv.1 px py x y hx hy]
    by_cases h : x = px ∧ y = py
    · rw [decide_eq_true h]
      cases fbGet cv.1 x y <;> simp [h]
    · rw [decide_eq_false h]
      cases fbGet cv.1 x y <;> simp [h]
  hit := by
    show (cv.2 || fbGet cv.1 px py) = true ↔ _
    rw [Bool.or_eq_true]
    refine or_congr_right ⟨fun h => ⟨_, _, ⟨rfl, rfl⟩, h⟩, ?_⟩
    rintro ⟨x, y, ⟨rfl, rfl⟩, h⟩
    exact h

/-- The pixel is under a set bit of columns `col` to `col + count - 1` of a sprite row. -/
def underRow (b : Byte) (x0 py col count x y : Nat) : Prop :=
  ∃ c, col ≤ c ∧ c < col + count ∧ b.getLsbD (7 - c) = true ∧ x = (x0 + c) % 64 ∧ y = py

theorem drawRow_toggles (b : Byte) (x0 py : Nat) (hpy : py < 32) (count col : Nat) (hc : col + count ≤ 8) (cv : Canvas) :
    Toggles (underRow b x0 py col count) cv (drawRow b x0 py col count cv) := by
  induction count generalizing col cv with
  | zero =>
    refine Toggles.nothing _ cv ?_
    rintro x y ⟨c, h1, h2, _⟩
    omega
  | succ count ih =>
    have hstep : drawRow b x0 py col (count + 1) cv = drawRow b x0 py (col + 1) count
        (if b.getLsbD (7 - col) then drawPixel cv ((x0 + col) % 64) py else cv) := rfl
    rw [hstep]
    by_cases hb : b.getLsbD (7 - col) = true
    · rw [if_pos hb]
      refine Toggles.comp (drawPixel_toggles cv _ _) (ih (col + 1) (by omega) _) ?_ ?_ ?_
      · intro x y
        constructor
        · rintro ⟨c, h1, h2, h3, h4⟩
          rcases Nat.eq_or_lt_of_le h1 with rfl | h
          · exact Or.inl h4
          · exact Or.inr ⟨c, by omega, by omega, h3, h4⟩
        · rintro (h | ⟨c, h1, h2, h3, h4⟩)
          · exact ⟨col, by omega, by omega, hb, h⟩
          · exact ⟨c, by omega, by omega, h3, h4⟩
      · rintro x y ⟨hx, _⟩ ⟨c, h1, h2, _, h4, _⟩
        omega
      · rintro x y ⟨c, _, _, _, hx, hy⟩
        omega
    · rw [if_neg hb]
      have h := ih (col + 1) (by omega) cv
      have heq : underRow b x0 py col (count + 1) = underRow b x0 py (col + 1) count := by
        funext x y
        apply propext
        constructor
        · rintro ⟨c, h1, h2, h3, h4⟩
          rcases Nat.eq_or_lt_of_le h1 with rfl | h
          · exact absurd h3 hb
          · exact ⟨c, by omega, by omega, h3, h4⟩
        · rintro ⟨c, h1, h2, h3, h4⟩
          exact ⟨c, by omega, by omega, h3, h4⟩
      rw [heq]
      exact h

/-- The pixel is under a set bit of rows `row` to `row + count - 1` of the sprite at `I`. -/
def underSprite (s : State) (x0 y0 row count x y : Nat) : Prop :=
  ∃ r c, row ≤ r ∧ r < row + count ∧ c < 8 ∧ (s.byteAt (s.base + r)).getLsbD (7 - c) = true ∧
    x = (x0 + c) % 64 ∧ y = (y0 + r) % 32

/-- The rows of a sprite of at most 32 rows. -/
theorem drawRows_toggles (s : State) (x0 y0 count row : Nat) (hc : row + count ≤ 32) (cv : Canvas) :
    Toggles (underSprite s x0 y0 row count) cv (drawRows s x0 y0 row count cv) := by
  induction count generalizing row cv with
  | zero =>
    refine Toggles.nothing _ cv ?_
    rintro x y ⟨r, c, h1, h2, _⟩
    omega
  | succ count ih =>
    have hstep : drawRows s x0 y0 row (count + 1) cv = drawRows s x0 y0 (row + 1) count
        (drawRow (s.byteAt (s.base + row)) x0 ((y0 + row) % 32) 0 8 cv) := rfl
    rw [hstep]
    refine Toggles.comp (drawRow_toggles _ x0 _ (Nat.mod_lt _ (by omega)) 8 0 (by omega) cv) (ih (row + 1) (by omega) _)
      ?_ ?_ ?_
    · intro x y
      constructor
      · rintro ⟨r, c, h1, h2, h3, h4, h5⟩
        rcases Nat.eq_or_lt_of_le h1 with rfl | h
        · exact Or.inl ⟨c, by omega, by omega, h4, h5⟩
        · exact Or.inr ⟨r, c, by omega, by omega, h3, h4, h5⟩
      · rintro (⟨c, h1, h2, h3, h4⟩ | ⟨r, c, h1, h2, h3, h4, h5⟩)
        · exact ⟨row, c, by omega, by omega, by omega, h3, h4⟩
        · exact ⟨r, c, by omega, by omega, h3, h4, h5⟩
    · rintro x y ⟨c, _, _, _, _, hy⟩ ⟨r, c', h1, h2, _, _, _, hy'⟩
      omega
    · rintro x y ⟨r, c, _, _, _, _, hx, hy⟩
      omega

/-- The same by pixel: column `px`, row `py` is under the sprite exactly when its distances from the start, modulo the
display's width and height, fall on a set bit. -/
theorem underSprite_iff (s : State) (x0 y0 n px py : Nat) (hn : n ≤ 32) (hx0 : x0 < 64) (hy0 : y0 < 32) (hpx : px < 64)
    (hpy : py < 32) : underSprite s x0 y0 0 n px py ↔
      ((px + 64 - x0) % 64 < 8 ∧ (py + 32 - y0) % 32 < n ∧
        (s.byteAt (s.base + (py + 32 - y0) % 32)).getLsbD (7 - (px + 64 - x0) % 64) = true) := by
  constructor
  · rintro ⟨r, c, _, h2, h3, h4, h5, h6⟩
    have e1 : (px + 64 - x0) % 64 = c := by omega
    have e2 : (py + 32 - y0) % 32 = r := by omega
    rw [e1, e2]
    exact ⟨h3, by omega, h4⟩
  · rintro ⟨h1, h2, h3⟩
    exact ⟨_, _, Nat.zero_le _, by omega, h1, h3, by omega, by omega⟩

end Sys2Proof.Machine
end

