-- ==== Sys2Proof/Laws/Frames.lean ====
section
/-! SUPPORT. The frame of each update, and how frames combine; the fault entry of `raise`. -/

namespace Sys2Proof.Machine

theorem Frame.refl (may : List Part) (s : State) : Frame may s s where
  regs _ _ := rfl
  index _ := rfl
  pc _ := rfl
  stack _ := ⟨rfl, rfl⟩
  delay _ := rfl
  sound _ := rfl
  display _ := rfl
  keys _ := rfl
  memory _ _ := rfl
  status _ := rfl
  draws _ := rfl
  cfg := rfl

theorem Frame.mono {may may' : List Part} {s t : State} (h : Frame may s t) (hs : ∀ p ∈ may, p ∈ may') :
    Frame may' s t where
  regs r hr := h.regs r (fun hm => hr (hs _ hm))
  index hr := h.index (fun hm => hr (hs _ hm))
  pc hr := h.pc (fun hm => hr (hs _ hm))
  stack hr := h.stack (fun hm => hr (hs _ hm))
  delay hr := h.delay (fun hm => hr (hs _ hm))
  sound hr := h.sound (fun hm => hr (hs _ hm))
  display hr := h.display (fun hm => hr (hs _ hm))
  keys hr := h.keys (fun hm => hr (hs _ hm))
  memory a ha := h.memory a (fun b l hm => ha b l (hs _ hm))
  status hr := h.status (fun hm => hr (hs _ hm))
  draws hr := h.draws (fun hm => hr (hs _ hm))
  cfg := h.cfg

theorem Frame.trans {may : List Part} {s t u : State} (h : Frame may s t) (h' : Frame may t u) : Frame may s u where
  regs r hr := (h'.regs r hr).trans (h.regs r hr)
  index hr := (h'.index hr).trans (h.index hr)
  pc hr := (h'.pc hr).trans (h.pc hr)
  stack hr := ⟨(h'.stack hr).1.trans (h.stack hr).1, (h'.stack hr).2.trans (h.stack hr).2⟩
  delay hr := (h'.delay hr).trans (h.delay hr)
  sound hr := (h'.sound hr).trans (h.sound hr)
  display hr := (h'.display hr).trans (h.display hr)
  keys hr := (h'.keys hr).trans (h.keys hr)
  memory a ha := (h'.memory a ha).trans (h.memory a ha)
  status hr := (h'.status hr).trans (h.status hr)
  draws hr := (h'.draws hr).trans (h.draws hr)
  cfg := h'.cfg.trans h.cfg

theorem frame_setReg (s : State) (x : Reg) (b : Byte) : Frame [.reg x] s (s.setReg x b) :=
  { Frame.refl [.reg x] s with
    regs := fun r hr => State.reg_setReg_other s x r b (fun e => hr (e ▸ List.mem_cons_self ..)) }

theorem frame_setRegFlag (s : State) (x : Reg) (b : Byte) (c : Bool) :
    Frame [.reg x, .reg flagReg] s (s.setRegFlag x b c) :=
  ((frame_setReg s x b).mono (by simp)).trans ((frame_setReg (s.setReg x b) flagReg (flagByte c)).mono (by simp))

theorem frame_setI (s : State) (w : Word) : Frame [.index] s (s.setI w) :=
  { Frame.refl [.index] s with index := fun h => absurd (List.mem_cons_self ..) h }

theorem frame_setPc (s : State) (w : Word) : Frame [.pc] s (s.setPc w) :=
  { Frame.refl [.pc] s with pc := fun h => absurd (List.mem_cons_self ..) h }

theorem frame_skipIf (s : State) (c : Bool) : Frame [.pc] s (s.skipIf c) := by
  rw [State.skipIf_eq_setPc]
  exact frame_setPc s _

theorem frame_setDt (s : State) (b : Byte) : Frame [.delay] s (s.setDt b) :=
  { Frame.refl [.delay] s with delay := fun h => absurd (List.mem_cons_self ..) h }

theorem frame_setSt (s : State) (b : Byte) : Frame [.sound] s (s.setSt b) :=
  { Frame.refl [.sound] s with sound := fun h => absurd (List.mem_cons_self ..) h }

theorem frame_setFb (s : State) (f : Framebuffer) : Frame [.display] s (s.setFb f) :=
  { Frame.refl [.display] s with display := fun h => absurd (List.mem_cons_self ..) h }

theorem frame_setKey (s : State) (k : Reg) (b : Bool) : Frame [.keys] s (s.setKey k b) :=
  { Frame.refl [.keys] s with keys := fun h => absurd (List.mem_cons_self ..) h }

theorem frame_drawn (s : State) : Frame [.draws] s s.drawn :=
  { Frame.refl [.draws] s with draws := fun h => absurd (List.mem_cons_self ..) h }

theorem frame_tick (s : State) : Frame [.delay, .sound] s s.tick :=
  { Frame.refl [.delay, .sound] s with delay := fun h => absurd (by simp) h, sound := fun h => absurd (by simp) h }

theorem frame_coupledTick (s : State) : Frame [.delay, .sound] s s.coupledTick := by
  unfold State.coupledTick
  split
  · exact Frame.refl _ s
  · exact frame_tick s

theorem frame_push {s t : State} {w : Word} (h : s.push w = some t) : Frame [.stack] s t := by
  unfold State.push at h
  split at h
  · cases h
    exact { Frame.refl [.stack] s with stack := fun h => absurd (List.mem_cons_self ..) h }
  · cases h

theorem frame_pop {s t : State} {w : Word} (h : s.pop = some (w, t)) : Frame [.stack] s t := by
  unfold State.pop at h
  split at h
  · cases h
    exact { Frame.refl [.stack] s with stack := fun h => absurd (List.mem_cons_self ..) h }
  · cases h

theorem frame_writeBytes (s : State) (a : Nat) (bs : List Byte) : Frame [.memory a bs.length] s (s.writeBytes a bs) := by
  have h := s.writeBytes_eq a bs
  have hm : ∀ k, (k < a ∨ a + bs.length ≤ k) → (s.writeBytes a bs).byteAt k = s.byteAt k :=
    fun k hk => s.byteAt_writeBytes_outside a bs k hk
  have hf : Frame [.memory a bs.length] s { s with mem := (s.writeBytes a bs).mem } :=
    { Frame.refl [.memory a bs.length] s with
      memory := fun k hk => by
        rw [← h]
        exact hm k (hk a bs.length (List.mem_cons_self ..)) }
  rw [h]
  exact hf

theorem frame_loadRegs (s : State) (base : Nat) (rs : List Reg) : Frame (regParts rs) s (s.loadRegs base rs) := by
  have h := s.loadRegs_eq base rs
  have hr : ∀ r, r ∉ rs → (s.loadRegs base rs).reg r = s.reg r := by
    intro r hn
    rw [State.reg_loadRegs, if_neg hn]
  have hf : Frame (regParts rs) s { s with v := (s.loadRegs base rs).v } :=
    { Frame.refl (regParts rs) s with
      regs := fun r hn => by
        rw [← h]
        exact hr r (fun hm => hn (List.mem_map.mpr ⟨r, hm, rfl⟩)) }
  rw [h]
  exact hf

theorem frame_takeFault (s : State) (kind : FaultKind) (addr : Word) (word : Option Word) (info : Word) :
    Frame [.pc, .status] s (s.takeFault kind addr word info) :=
  { Frame.refl [.pc, .status] s with pc := fun h => absurd (by simp) h, status := fun h => absurd (by simp) h }

/-- A fault taken at `pc` itself leaves `pc` where it is. -/
theorem frame_takeFault_at_pc (s : State) (kind : FaultKind) (word : Option Word) (info : Word) :
    Frame [.status] s (s.takeFault kind s.pc word info) :=
  { Frame.refl [.status] s with status := fun h => absurd (by simp) h }

/-- `raise` answers a next state: the fault's entry (R108). -/
theorem raise_next (kind : FaultKind) (i : Instr) (info : Word) (s : State) :
    ∃ t, raise kind i info s = .next t ∧ FaultEntry kind (encode i) info.toNat s t :=
  ⟨_, rfl, by simp, rfl, frame_takeFault s _ _ _ _⟩

end Sys2Proof.Machine
end

