-- ==== Sys2Proof/Laws/PerInstr.lean ====
section
/-! SUPPORT. The per-instruction family `MatchesRow`: the word the encoder gives a well-formed instruction stands in the row
of the opcode map its operation has (30_encoding.md R81, R83). -/

namespace Sys2Proof.Laws.MatchesRow

/-- The word of `i` selects the row of `i`, and that row is in the map. -/
def Statement (i : Instr) : Prop := i.WellFormed → selects (encode i) i.row = true ∧ i.row ∈ opcodeMap

theorem cls : Statement .cls := fun _ => ⟨by decide, by simp [opcodeMap, Instr.row]⟩

theorem ret : Statement .ret := fun _ => ⟨by decide, by simp [opcodeMap, Instr.row]⟩

theorem jp (nnn : Addr12) : Statement (.jp nnn) := fun _ =>
  ⟨beq_iff_eq.mpr (encodeNNN_row 1 (by omega) nnn), by simp [opcodeMap, Instr.row]⟩

theorem call (nnn : Addr12) : Statement (.call nnn) := fun _ =>
  ⟨beq_iff_eq.mpr (encodeNNN_row 2 (by omega) nnn), by simp [opcodeMap, Instr.row]⟩

theorem seImm (x : Reg) (nn : Byte) : Statement (.seImm x nn) := fun _ =>
  ⟨beq_iff_eq.mpr (encodeXNN_row 3 (by omega) x nn), by simp [opcodeMap, Instr.row]⟩

theorem sneImm (x : Reg) (nn : Byte) : Statement (.sneImm x nn) := fun _ =>
  ⟨beq_iff_eq.mpr (encodeXNN_row 4 (by omega) x nn), by simp [opcodeMap, Instr.row]⟩

theorem seReg (x y : Reg) : Statement (.seReg x y) := fun _ =>
  ⟨beq_iff_eq.mpr (encodeXYS_row 5 (by omega) x y 0 (by omega)), by simp [opcodeMap, Instr.row]⟩

theorem ldImm (x : Reg) (nn : Byte) : Statement (.ldImm x nn) := fun _ =>
  ⟨beq_iff_eq.mpr (encodeXNN_row 6 (by omega) x nn), by simp [opcodeMap, Instr.row]⟩

theorem addImm (x : Reg) (nn : Byte) : Statement (.addImm x nn) := fun _ =>
  ⟨beq_iff_eq.mpr (encodeXNN_row 7 (by omega) x nn), by simp [opcodeMap, Instr.row]⟩

theorem mov (x y : Reg) : Statement (.mov x y) := fun _ =>
  ⟨beq_iff_eq.mpr (encodeXYS_row 8 (by omega) x y 0 (by omega)), by simp [opcodeMap, Instr.row]⟩

theorem or (x y : Reg) : Statement (.or x y) := fun _ =>
  ⟨beq_iff_eq.mpr (encodeXYS_row 8 (by omega) x y 1 (by omega)), by simp [opcodeMap, Instr.row]⟩

theorem and (x y : Reg) : Statement (.and x y) := fun _ =>
  ⟨beq_iff_eq.mpr (encodeXYS_row 8 (by omega) x y 2 (by omega)), by simp [opcodeMap, Instr.row]⟩

theorem xor (x y : Reg) : Statement (.xor x y) := fun _ =>
  ⟨beq_iff_eq.mpr (encodeXYS_row 8 (by omega) x y 3 (by omega)), by simp [opcodeMap, Instr.row]⟩

theorem add (x y : Reg) : Statement (.add x y) := fun _ =>
  ⟨beq_iff_eq.mpr (encodeXYS_row 8 (by omega) x y 4 (by omega)), by simp [opcodeMap, Instr.row]⟩

theorem sub (x y : Reg) : Statement (.sub x y) := fun _ =>
  ⟨beq_iff_eq.mpr (encodeXYS_row 8 (by omega) x y 5 (by omega)), by simp [opcodeMap, Instr.row]⟩

theorem shr (x y : Reg) : Statement (.shr x y) := fun _ =>
  ⟨beq_iff_eq.mpr (encodeXYS_row 8 (by omega) x y 6 (by omega)), by simp [opcodeMap, Instr.row]⟩

theorem subn (x y : Reg) : Statement (.subn x y) := fun _ =>
  ⟨beq_iff_eq.mpr (encodeXYS_row 8 (by omega) x y 7 (by omega)), by simp [opcodeMap, Instr.row]⟩

theorem shl (x y : Reg) : Statement (.shl x y) := fun _ =>
  ⟨beq_iff_eq.mpr (encodeXYS_row 8 (by omega) x y 14 (by omega)), by simp [opcodeMap, Instr.row]⟩

theorem sneReg (x y : Reg) : Statement (.sneReg x y) := fun _ =>
  ⟨beq_iff_eq.mpr (encodeXYS_row 9 (by omega) x y 0 (by omega)), by simp [opcodeMap, Instr.row]⟩

theorem ldI (nnn : Addr12) : Statement (.ldI nnn) := fun _ =>
  ⟨beq_iff_eq.mpr (encodeNNN_row 10 (by omega) nnn), by simp [opcodeMap, Instr.row]⟩

theorem jpV0 (nnn : Addr12) : Statement (.jpV0 nnn) := fun _ =>
  ⟨beq_iff_eq.mpr (encodeNNN_row 11 (by omega) nnn), by simp [opcodeMap, Instr.row]⟩

theorem rnd (x : Reg) (nn : Byte) : Statement (.rnd x nn) := fun _ =>
  ⟨beq_iff_eq.mpr (encodeXNN_row 12 (by omega) x nn), by simp [opcodeMap, Instr.row]⟩

theorem drw (x y : Reg) (n : Nat) : Statement (.drw x y n) := fun h =>
  ⟨beq_iff_eq.mpr (encodeXYN_row 13 (by omega) x y n (of_decide_eq_true h)), by simp [opcodeMap, Instr.row]⟩

theorem skp (x : Reg) : Statement (.skp x) := fun _ =>
  ⟨beq_iff_eq.mpr (encodeXSS_row 14 (by omega) x 0x9e), by simp [opcodeMap, Instr.row]⟩

theorem sknp (x : Reg) : Statement (.sknp x) := fun _ =>
  ⟨beq_iff_eq.mpr (encodeXSS_row 14 (by omega) x 0xa1), by simp [opcodeMap, Instr.row]⟩

theorem ldXDt (x : Reg) : Statement (.ldXDt x) := fun _ =>
  ⟨beq_iff_eq.mpr (encodeXSS_row 15 (by omega) x 0x7), by simp [opcodeMap, Instr.row]⟩

theorem ldXK (x : Reg) : Statement (.ldXK x) := fun _ =>
  ⟨beq_iff_eq.mpr (encodeXSS_row 15 (by omega) x 0xa), by simp [opcodeMap, Instr.row]⟩

theorem ldDtX (x : Reg) : Statement (.ldDtX x) := fun _ =>
  ⟨beq_iff_eq.mpr (encodeXSS_row 15 (by omega) x 0x15), by simp [opcodeMap, Instr.row]⟩

theorem ldStX (x : Reg) : Statement (.ldStX x) := fun _ =>
  ⟨beq_iff_eq.mpr (encodeXSS_row 15 (by omega) x 0x18), by simp [opcodeMap, Instr.row]⟩

theorem addIX (x : Reg) : Statement (.addIX x) := fun _ =>
  ⟨beq_iff_eq.mpr (encodeXSS_row 15 (by omega) x 0x1e), by simp [opcodeMap, Instr.row]⟩

theorem ldFX (x : Reg) : Statement (.ldFX x) := fun _ =>
  ⟨beq_iff_eq.mpr (encodeXSS_row 15 (by omega) x 0x29), by simp [opcodeMap, Instr.row]⟩

theorem bcd (x : Reg) : Statement (.bcd x) := fun _ =>
  ⟨beq_iff_eq.mpr (encodeXSS_row 15 (by omega) x 0x33), by simp [opcodeMap, Instr.row]⟩

theorem store (x : Reg) : Statement (.store x) := fun _ =>
  ⟨beq_iff_eq.mpr (encodeXSS_row 15 (by omega) x 0x55), by simp [opcodeMap, Instr.row]⟩

theorem load (x : Reg) : Statement (.load x) := fun _ =>
  ⟨beq_iff_eq.mpr (encodeXSS_row 15 (by omega) x 0x65), by simp [opcodeMap, Instr.row]⟩

end Sys2Proof.Laws.MatchesRow
end

