-- ==== Sys2Proof/Laws/Step.lean ====
section
/-! SUPPORT. What the step cycle can do (40_step.md R110): one equation per way a step goes, for any execute phase, and the
inversion of a step taken while running. -/

namespace Sys2Proof.Machine

theorem stepBy_faulted (ex : Instr → State → Outcome) (s : State) (rec : FaultRecord) (h : s.status = .faulted rec) :
    stepBy ex s = .next s := by
  rw [stepBy, h]

theorem stepBy_running (ex : Instr → State → Outcome) (s : State) (h : s.status = .running) :
    stepBy ex s = mapNext State.coupledTick (cycle ex s) := by
  rw [stepBy, h]

theorem cycle_of_fetchable (ex : Instr → State → Outcome) (s : State) (h : s.fetchable) :
    cycle ex s = match s.instrAtPc with
      | none => .next (s.takeFault .invalidInstruction s.pc (some s.wordAtPc) s.wordAtPc)
      | some i => ex i s.advance := by
  rw [cycle, fetch_ok s h]
  rfl

theorem cycle_of_not_fetchable (ex : Instr → State → Outcome) (s : State) (h : ¬ s.fetchable) :
    cycle ex s = .next (s.takeFault .memoryBounds s.pc none (BitVec.ofNat 16 (max s.pc.toNat 0x1000))) := by
  have h' : 0xFFF ≤ s.pc.toNat := by
    unfold State.fetchable at h
    omega
  rw [cycle]
  by_cases h1 : s.pc.toNat = 0xFFF
  · rw [fetch_second s h1]
    dsimp only
    rw [h1]
    rfl
  · rw [fetch_first s (by omega)]
    dsimp only
    rw [Nat.max_eq_left (by omega), BitVec.ofNat_toNat, BitVec.setWidth_eq]

/-- The ways a step taken while running goes: the fetch faults, the decode faults, or the operation runs. -/
theorem cycle_cases (ex : Instr → State → Outcome) (s : State) :
    (¬ s.fetchable ∧
      cycle ex s = .next (s.takeFault .memoryBounds s.pc none (BitVec.ofNat 16 (max s.pc.toNat 0x1000)))) ∨
    (s.fetchable ∧ s.instrAtPc = none ∧
      cycle ex s = .next (s.takeFault .invalidInstruction s.pc (some s.wordAtPc) s.wordAtPc)) ∨
    (∃ i, s.fetchable ∧ s.instrAtPc = some i ∧ cycle ex s = ex i s.advance) := by
  by_cases h : s.fetchable
  · have hc := cycle_of_fetchable ex s h
    cases hi : s.instrAtPc with
    | none =>
      rw [hi] at hc
      exact Or.inr (Or.inl ⟨h, rfl, hc⟩)
    | some i =>
      rw [hi] at hc
      exact Or.inr (Or.inr ⟨i, h, rfl, hc⟩)
  · exact Or.inl ⟨h, cycle_of_not_fetchable ex s h⟩

theorem mapNext_eq_next {f : State → State} {o : Outcome} {t : State} (h : mapNext f o = .next t) :
    ∃ u, o = .next u ∧ t = f u := by
  cases o with
  | next u =>
    cases h
    exact ⟨u, rfl, rfl⟩
  | fault r => cases h
  | refused r => cases h

@[simp] theorem State.coupledTick_status (s : State) : s.coupledTick.status = s.status := by
  unfold State.coupledTick
  split <;> rfl

@[simp] theorem State.coupledTick_pc (s : State) : s.coupledTick.pc = s.pc := by
  unfold State.coupledTick
  split <;> rfl

theorem State.coupledTick_independent (s : State) (h : s.cfg.timerCoupling = .independent) : s.coupledTick = s := by
  rw [State.coupledTick, h]

theorem State.coupledTick_perStep (s : State) (h : s.cfg.timerCoupling = .perStep) : s.coupledTick = s.tick := by
  rw [State.coupledTick, h]

/-- The fetch's advance below the end of memory does not wrap (10_state.md R27). -/
theorem State.advance_pc_toNat (s : State) (h : s.fetchable) : s.advance.pc.toNat = s.pc.toNat + 2 := by
  unfold State.fetchable at h
  have h2 : (2 : Word).toNat = 2 := rfl
  rw [State.advance_pc, BitVec.toNat_add, h2]
  omega

/-- Every operation but CXNN runs the same whatever the random byte is. -/
theorem execWith_other (r : Byte) (i : Instr) (s : State) (h : ∀ x nn, i ≠ .rnd x nn) : execWith r i s = exec i s := by
  cases i <;> first
    | rfl
    | exact absurd rfl (h _ _)

/-- At the free random byte the execute phase is `exec`. -/
theorem execWith_free (i : Instr) (s : State) : execWith (Config.randomByte s.draws) i s = exec i s := by
  cases i <;> rfl

end Sys2Proof.Machine
end

