-- ==== Sys2Proof/Tests/Slice0.lean ====
section
/-! SUPPORT. The model's own tests: the check of WellFormed, one decoded word per constructor written out from
30_encoding.md R72 and R81, single steps with the results of 95_test_vectors.md, and a witness for the hypotheses of every
statement that has some. -/

namespace Sys2Proof.Tests

open Sys2Proof Sys2Proof.Machine

/-! ### WellFormed: the one check, and a term it refuses -/

theorem test_wellFormed_refuses_sixteen_rows : (Instr.drw 0 0 16).wellFormed = false := by decide

theorem test_wellFormed_takes_fifteen_rows : (Instr.drw 0xF 0xF 15).wellFormed = true := by decide

/-! ### Decoding: bits 15..12, 11..8, 7..4, 3..0 of each word as R72 gives them -/

theorem test_decode_cls : decodeTableWord 16 0b0000000011100000 = some .cls := by decide
theorem test_decode_ret : decodeTableWord 16 0b0000000011101110 = some .ret := by decide
theorem test_decode_jp : decodeTableWord 16 0b0001001000110100 = some (.jp 0x234) := by decide
theorem test_decode_call : decodeTableWord 16 0b0010001100000000 = some (.call 0x300) := by decide
theorem test_decode_seImm : decodeTableWord 16 0b0011001101000010 = some (.seImm 3 0x42) := by decide
theorem test_decode_sneImm : decodeTableWord 16 0b0100001101000010 = some (.sneImm 3 0x42) := by decide
theorem test_decode_seReg : decodeTableWord 16 0b0101000100100000 = some (.seReg 1 2) := by decide
theorem test_decode_ldImm : decodeTableWord 16 0b0110101000101100 = some (.ldImm 0xA 0x2C) := by decide
theorem test_decode_addImm : decodeTableWord 16 0b0111000100000011 = some (.addImm 1 3) := by decide
theorem test_decode_mov : decodeTableWord 16 0b1000000100100000 = some (.mov 1 2) := by decide
theorem test_decode_or : decodeTableWord 16 0b1000000100100001 = some (.or 1 2) := by decide
theorem test_decode_and : decodeTableWord 16 0b1000000100100010 = some (.and 1 2) := by decide
theorem test_decode_xor : decodeTableWord 16 0b1000000100100011 = some (.xor 1 2) := by decide
theorem test_decode_add : decodeTableWord 16 0b1000000100100100 = some (.add 1 2) := by decide
theorem test_decode_sub : decodeTableWord 16 0b1000000100100101 = some (.sub 1 2) := by decide
theorem test_decode_shr : decodeTableWord 16 0b1000000100100110 = some (.shr 1 2) := by decide
theorem test_decode_subn : decodeTableWord 16 0b1000000100100111 = some (.subn 1 2) := by decide
theorem test_decode_shl : decodeTableWord 16 0b1000000100101110 = some (.shl 1 2) := by decide
theorem test_decode_sneReg : decodeTableWord 16 0b1001101010110000 = some (.sneReg 0xA 0xB) := by decide
theorem test_decode_ldI : decodeTableWord 16 0b1010001011110000 = some (.ldI 0x2F0) := by decide
theorem test_decode_jpV0 : decodeTableWord 16 0b1011001100000000 = some (.jpV0 0x300) := by decide
theorem test_decode_rnd : decodeTableWord 16 0b1100001100001111 = some (.rnd 3 0x0F) := by decide
theorem test_decode_drw : decodeTableWord 16 0b1101001110100101 = some (.drw 3 0xA 5) := by decide
theorem test_decode_skp : decodeTableWord 16 0b1110000110011110 = some (.skp 1) := by decide
theorem test_decode_sknp : decodeTableWord 16 0b1110000110100001 = some (.sknp 1) := by decide
theorem test_decode_ldXDt : decodeTableWord 16 0b1111001100000111 = some (.ldXDt 3) := by decide
theorem test_decode_ldXK : decodeTableWord 16 0b1111010100001010 = some (.ldXK 5) := by decide
theorem test_decode_ldDtX : decodeTableWord 16 0b1111001000010101 = some (.ldDtX 2) := by decide
theorem test_decode_ldStX : decodeTableWord 16 0b1111001000011000 = some (.ldStX 2) := by decide
theorem test_decode_addIX : decodeTableWord 16 0b1111001000011110 = some (.addIX 2) := by decide
theorem test_decode_ldFX : decodeTableWord 16 0b1111010000101001 = some (.ldFX 4) := by decide
theorem test_decode_bcd : decodeTableWord 16 0b1111001100110011 = some (.bcd 3) := by decide
theorem test_decode_store : decodeTableWord 16 0b1111001001010101 = some (.store 2) := by decide
theorem test_decode_load : decodeTableWord 16 0b1111111101100101 = some (.load 0xF) := by decide

/-- The invalid words of 95_test_vectors.md section 2.1. -/
theorem test_decode_refuses :
    [0x0000, 0x00E1, 0x01E0, 0x0123, 0x5121, 0x9ABF, 0x8008, 0x800F, 0xE19F, 0xF10B].all
      (fun w => (decodeTableWord 16 w).isNone) = true := by decide

/-- The decoder names what it refuses. -/
theorem test_decodeBytes_names_the_word :
    decodeBytes true [0x00, 0xE1] = .error (.invalid 0x00E1) ∧ decodeBytes true [0x00] = .error .truncated := by
  exact ⟨rfl, rfl⟩

/-- 95_test_vectors.md section 2.1: 8XY4 with X = 1, Y = 2 is stored as 0x81, 0x24. -/
theorem test_encode_big_endian : encodeBytes (.add 1 2) = [0x81, 0x24] := by decide

/-! ### Single steps: the word placed at `pc`, one `Step` event -/

/-- Whether a step of `s` with the word `w` at `pc` answers a next state that passes `p`. -/
def after (s : State) (w : Nat) (p : State → Bool) : Bool :=
  match step (s.withFetchWord 16 w) with
  | .next t => p t
  | .fault _ => false
  | .refused _ => false

/-- The same for `Step(r)`. -/
def afterWith (r : Byte) (s : State) (w : Nat) (p : State → Bool) : Bool :=
  match stepWith r (s.withFetchWord 16 w) with
  | .next t => p t
  | .fault _ => false
  | .refused _ => false

/-- The reset state with three registers set. -/
def regs (x : Reg) (a : Byte) (y : Reg) (b : Byte) (f : Byte := 0) : State :=
  (((State.reset).setReg 0xF f).setReg x a).setReg y b

/-- The status holds this record. -/
def faulted (t : State) (kind : FaultKind) (addr : Word) (word : Option Word) (info : Word) : Bool :=
  decide (t.status = .faulted ⟨kind, addr, word, info⟩)

-- 95_test_vectors.md E3, section 2.6
theorem test_cls : after ({ State.reset with fb := Vector.replicate 32 (BitVec.allOnes 64) }.setReg 0xF 1) 0x00E0
    (fun t => t.fb == fbBlank && t.reg 0xF == 1 && t.pc == 0x202) = true := by decide

-- section 2.3
theorem test_ret : after { State.reset with sp := 1, stack := State.reset.stack.set 0 0x204 } 0x00EE
    (fun t => t.sp == 0 && t.pc == 0x204 && t.stack[0] == 0x204) = true := by decide

theorem test_ret_underflow : after State.reset 0x00EE
    (fun t => faulted t .stackUnderflow 0x200 (some 0x00EE) 0 && t.pc == 0x200) = true := by decide

theorem test_jp_odd : after State.reset 0x1201 (fun t => t.pc == 0x201) = true := by decide

theorem test_call_sixteenth : after { State.reset with sp := 15 } 0x2300
    (fun t => t.stack[15] == 0x202 && t.sp == 16 && t.pc == 0x300) = true := by decide

theorem test_call_overflow : after { State.reset with sp := 16 } 0x2300
    (fun t => faulted t .stackOverflow 0x200 (some 0x2300) 16 && t.pc == 0x200 && t.sp == 16 && t.stack[15] == 0) = true := by
  decide

theorem test_seImm : after (regs 3 0x42 4 0) 0x3342 (fun t => t.pc == 0x204) = true := by decide
theorem test_seImm_other : after (regs 3 0x42 4 0) 0x3343 (fun t => t.pc == 0x202) = true := by decide
theorem test_sneImm : after (regs 3 0x42 4 0) 0x4300 (fun t => t.pc == 0x204) = true := by decide
theorem test_sneImm_equal : after (regs 3 0x42 4 0) 0x4342 (fun t => t.pc == 0x202) = true := by decide
theorem test_seReg : after (regs 1 7 2 7) 0x5120 (fun t => t.pc == 0x204) = true := by decide
theorem test_seReg_other : after (regs 1 7 2 8) 0x5120 (fun t => t.pc == 0x202) = true := by decide
theorem test_sneReg : after (regs 1 7 2 8) 0x9120 (fun t => t.pc == 0x204) = true := by decide
theorem test_sneReg_same : after State.reset 0x9110 (fun t => t.pc == 0x202) = true := by decide

theorem test_jpV0_past_memory : after (regs 0 0xFF 5 0x80) 0xBFFF (fun t => t.pc == 0x10FE) = true := by decide
theorem test_jpV0_reads_V0 : after (regs 0 1 5 0x80) 0xB500 (fun t => t.pc == 0x501) = true := by decide

-- section 2.4
theorem test_ldImm_flag : after State.reset 0x6FAA (fun t => t.reg 0xF == 0xAA && t.pc == 0x202) = true := by decide
theorem test_addImm_wraps : after (regs 1 0x01 2 0 7) 0x71FF (fun t => t.reg 1 == 0 && t.reg 0xF == 7) = true := by decide
theorem test_mov : after (regs 1 0 2 9) 0x8120 (fun t => t.reg 1 == 9 && t.reg 2 == 9) = true := by decide
theorem test_or : after (regs 1 0x0F 2 0xF0 5) 0x8121 (fun t => t.reg 1 == 0xFF && t.reg 0xF == 5) = true := by decide
theorem test_and : after (regs 1 0x3C 2 0x0F) 0x8122 (fun t => t.reg 1 == 0x0C) = true := by decide
theorem test_xor : after (regs 1 0x3C 2 0x0F) 0x8123 (fun t => t.reg 1 == 0x33) = true := by decide
theorem test_add : after (regs 1 250 2 10) 0x8124 (fun t => t.reg 1 == 4 && t.reg 0xF == 1) = true := by decide
theorem test_add_into_flag : after (regs 1 0xFF 0xF 1) 0x8F14 (fun t => t.reg 0xF == 1) = true := by decide
theorem test_sub : after (regs 1 3 2 10) 0x8125 (fun t => t.reg 1 == 249 && t.reg 0xF == 0) = true := by decide
theorem test_sub_equal : after (regs 1 5 2 5) 0x8125 (fun t => t.reg 1 == 0 && t.reg 0xF == 1) = true := by decide
theorem test_shr : after (regs 1 0x04 3 0xFF) 0x8136 (fun t => t.reg 1 == 0x02 && t.reg 0xF == 0) = true := by decide
theorem test_shr_flag : after (regs 1 0 0xF 3) 0x8F16 (fun t => t.reg 0xF == 1) = true := by decide
theorem test_subn : after (regs 1 3 2 10) 0x8127 (fun t => t.reg 1 == 7 && t.reg 0xF == 1) = true := by decide
theorem test_subn_flag : after (regs 1 10 0xF 3) 0x8F17 (fun t => t.reg 0xF == 1) = true := by decide
theorem test_shl : after (regs 1 0x81 2 0) 0x810E (fun t => t.reg 1 == 0x02 && t.reg 0xF == 1) = true := by decide
theorem test_shl_flag : after (regs 1 0 0xF 0x7F) 0x8F1E (fun t => t.reg 0xF == 0) = true := by decide
theorem test_rnd : afterWith 0xB7 State.reset 0xC30F (fun t => t.reg 3 == 0x07 && t.pc == 0x202) = true := by decide
theorem test_rnd_high : afterWith 0xB7 State.reset 0xC3F0 (fun t => t.reg 3 == 0xB0) = true := by decide

-- section 2.5
theorem test_ldI : after { State.reset with i := 0xFFFF } 0xA000 (fun t => t.i == 0) = true := by decide
theorem test_addIX_keeps_16_bits : after { regs 1 1 2 0 with i := 0xFFF } 0xF11E (fun t => t.i == 0x1000) = true := by decide
theorem test_addIX_wraps : after { regs 1 2 2 0 with i := 0xFFFF } 0xF11E (fun t => t.i == 1 && t.reg 0xF == 0) = true := by
  decide
theorem test_ldFX : after (regs 4 0xA 1 0) 0xF429 (fun t => t.i == 0x082) = true := by decide
theorem test_ldFX_unmasked : after (regs 1 0xFF 2 0) 0xF129 (fun t => t.i == 0x54B) = true := by decide
theorem test_bcd : after { regs 3 157 4 0 with i := 0x300 } 0xF333
    (fun t => t.byteAt 0x300 == 1 && t.byteAt 0x301 == 5 && t.byteAt 0x302 == 7 && t.i == 0x300) = true := by decide
theorem test_bcd_out_of_range : after { regs 3 1 4 0 with i := 0xFFE } 0xF333
    (fun t => faulted t .memoryBounds 0x200 (some 0xF333) 0x1000 && t.byteAt 0xFFE == 0) = true := by decide
theorem test_store : after { (regs 0 1 1 2).setReg 2 3 with i := 0x300 } 0xF255
    (fun t => t.byteAt 0x300 == 1 && t.byteAt 0x301 == 2 && t.byteAt 0x302 == 3 && t.byteAt 0x303 == 0 && t.i == 0x300) =
      true := by decide
theorem test_store_all_out_of_range : after { regs 0 1 1 2 with i := 0xFF1 } 0xFF55
    (fun t => faulted t .memoryBounds 0x200 (some 0xFF55) 0x1000 && t.byteAt 0xFF1 == 0) = true := by decide
theorem test_load : after { State.reset.writeBytes 0x300 [7, 8, 9, 10] with i := 0x300 } 0xF265
    (fun t => t.reg 0 == 7 && t.reg 1 == 8 && t.reg 2 == 9 && t.reg 3 == 0 && t.i == 0x300) = true := by decide
theorem test_load_out_of_range : after { State.reset with i := 0xFFC } 0xF565
    (fun t => faulted t .memoryBounds 0x200 (some 0xF565) 0x1000) = true := by decide

-- section 2.6
theorem test_drw_wraps : after { (regs 1 60 2 33).setByte 0x300 0xFF with i := 0x300 } 0xD121
    (fun t => t.pixel 60 1 && t.pixel 63 1 && t.pixel 0 1 && t.pixel 3 1 && !t.pixel 4 1 && !t.pixel 59 1 &&
      t.reg 0xF == 0) = true := by decide
theorem test_drw_collides :
    after { State.reset.setByte 0x300 0x01 with i := 0x300, fb := fbToggle (fbToggle fbBlank 0 0) 7 0 } 0xD011
    (fun t => t.pixel 0 0 && !t.pixel 7 0 && t.reg 0xF == 1) = true := by decide

-- section 2.7
theorem test_skp : after ((regs 1 5 2 0).setKey 5 true) 0xE19E (fun t => t.pc == 0x204) = true := by decide
theorem test_skp_key_index : after (regs 1 0x10 2 0) 0xE19E
    (fun t => faulted t .keyIndex 0x200 (some 0xE19E) 0x10 && t.pc == 0x200) = true := by decide
theorem test_sknp : after ((regs 1 5 2 0).setKey 5 true) 0xE1A1 (fun t => t.pc == 0x202) = true := by decide
theorem test_sknp_key_index : after (regs 0xF 0xFF 2 0 0xFF) 0xEFA1
    (fun t => faulted t .keyIndex 0x200 (some 0xEFA1) 0xFF) = true := by decide
theorem test_ldXDt : after { State.reset with dt := 0x3C } 0xF307 (fun t => t.reg 3 == 0x3C) = true := by decide
theorem test_ldXK_waits : after (regs 5 0x42 1 0) 0xF50A (fun t => t.pc == 0x200 && t.reg 5 == 0x42) = true := by decide
theorem test_ldXK_lowest : after ((State.reset.setKey 9 true).setKey 3 true) 0xF50A
    (fun t => t.reg 5 == 3 && t.pc == 0x202) = true := by decide
theorem test_ldDtX : after (regs 2 60 1 0) 0xF215 (fun t => t.dt == 60 && t.st == 0) = true := by decide
theorem test_ldStX : after { regs 0 0 1 0 with st := 5 } 0xF018 (fun t => t.st == 0 && !tone t) = true := by decide

/-! ### Fetch, coupling, events (sections 2.2, 2.7, 2.8) -/

theorem test_fetch_last_word : after { State.reset with pc := 0xFFE } 0x6000 (fun t => t.pc == 0x1000) = true := by decide
theorem test_fetch_second_byte_out : after { State.reset with pc := 0xFFF } 0
    (fun t => faulted t .memoryBounds 0xFFF none 0x1000 && t.pc == 0xFFF) = true := by decide
theorem test_fetch_out : after { State.reset with pc := 0x10FE } 0
    (fun t => faulted t .memoryBounds 0x10FE none 0x10FE) = true := by decide
theorem test_perStep_tick : after ({ regs 0 9 1 0 with dt := 5 }.withCoupling .perStep) 0xF015 (fun t => t.dt == 8) = true := by
  decide
theorem test_perStep_tick_after_fault : after ({ State.reset with dt := 5 }.withCoupling .perStep) 0x0000
    (fun t => faulted t .invalidInstruction 0x200 (some 0) 0 && t.dt == 4) = true := by decide
theorem test_not_strict : after { State.reset with cfg := { Config.default with strict59 := false } } 0x5121
    (fun t => t.pc == 0x204) = true := by decide
theorem test_tick : ({ State.reset with dt := 1 }.tick).dt = 0 ∧ ({ State.reset with st := 3 }.tick).st = 2 ∧
    State.reset.tick = State.reset := by decide
theorem test_font : State.reset.byteAt 0x050 = 0xF0 ∧ State.reset.byteAt 0x055 = 0x20 ∧ State.reset.byteAt 0x09F = 0x80 ∧
    State.reset.byteAt 0x04F = 0 ∧ State.reset.byteAt 0x0A0 = 0 := by decide

/-! ### Witnesses: concrete states and operands that meet the hypotheses of the statements, clause by clause, at the
boundaries of their ranges -/

/-- The reset state with a word at `pc`. -/
def placed (w : Nat) : State := State.reset.withFetchWord 16 w

/-- The reset state with `I` set. -/
def indexed (i : Word) : State := { State.reset with i := i }

theorem witness_DecodeOfEncodeIsTheInstruction : (Instr.drw 0xF 0xF 15).WellFormed ∧ (Instr.jp 0xFFF).WellFormed := by decide

theorem witness_EncodeOfDecodeIsTheWord :
    decodeWord true 0x8124 = some (.add 1 2) ∧ decodeWord false 0x5121 = some (.seReg 1 2) ∧
      decodeWord false 0x9ABF = some (.sneReg 0xA 0xB) := by decide

theorem witness_GroupZeroDecodesTheWholeWord :
    ((0x0FFF : Word).toNat ≤ 0x0FFF) ∧ (placed 0x0FFF).status = .running ∧ (placed 0x0FFF).fetchable ∧
      (placed 0x0FFF).wordAtPc.toNat ≤ 0x0FFF ∧ (placed 0x0FFF).wordAtPc ≠ 0x00E0 ∧ (placed 0x0FFF).wordAtPc ≠ 0x00EE := by
  decide

theorem witness_GroupsFiveAndNineFollowTheParameter :
    (placed 0x5121).status = .running ∧ (placed 0x5121).fetchable ∧ (placed 0x5121).cfg.strict59 = true ∧
      (placed 0x5121).wordAtPc = encodeXYN 5 1 2 1 ∧ (placed 0x9ABF).wordAtPc = encodeXYN 9 0xA 0xB 15 := by decide

theorem witness_FetchReadsTwoBytesOrFaults :
    ({ State.reset with pc := 0xFFE }).pc.toNat ≤ 0xFFE ∧ 0xFFF ≤ ({ State.reset with pc := 0xFFF }).pc.toNat ∧
      0xFFF ≤ ({ State.reset with pc := 0x1000 }).pc.toNat ∧ State.reset.status = .running := by decide

theorem witness_StepRunsTheDecodedInstruction :
    (placed 0x8124).status = .running ∧ (placed 0x8124).fetchable ∧ (placed 0x8124).instrAtPc = some (.add 1 2) := by decide

theorem witness_InvalidWordFaults :
    (placed 0x8008).status = .running ∧ (placed 0x8008).fetchable ∧ (placed 0x8008).instrAtPc = none := by decide

theorem witness_FaultsArePrecise :
    ∃ t rec, (placed 0x00EE).status = .running ∧ step (placed 0x00EE) = .next t ∧ t.status = .faulted rec :=
  ⟨_, _, rfl, rfl, rfl⟩

theorem witness_FaultsArePrecise_fetch :
    ∃ t rec, State.reset.status = .running ∧ step { State.reset with pc := 0xFFF } = .next t ∧ t.status = .faulted rec :=
  ⟨_, _, rfl, rfl, rfl⟩

/-- A cause of each kind: fetch, decode, operation. -/
theorem witness_FaultsAreThoseOfTheTable :
    FaultCause { State.reset with pc := 0x10FE } .memoryBounds none 0x10FE ∧
      FaultCause (placed 0x0000) .invalidInstruction (some 0) 0 ∧
      FaultCause (placed 0x00EE) .stackUnderflow (some 0x00EE) 0 :=
  ⟨Or.inl (by decide), Or.inr ⟨by decide, by decide, Or.inl (by decide)⟩,
    Or.inr ⟨by decide, by decide, Or.inr ⟨.ret, by decide, rfl, rfl, rfl⟩⟩⟩

/-- The core halted by an invalid word. -/
def halted : State := State.reset.takeFault .invalidInstruction 0x200 (some 0) 0

/-- Images of any size. -/
theorem image_length (n : Nat) : (List.replicate n (0xAA : Byte)).length = n := List.length_replicate

theorem witness_FaultedCoreIgnoresSteps :
    halted.status = .faulted ⟨.invalidInstruction, 0x200, some 0, 0⟩ ∧ ∃ image : List Byte, image.length = 3584 :=
  ⟨rfl, _, image_length 3584⟩

theorem witness_OperationsWriteOnlyTheirParts :
    (∃ t, exec (.add 1 2) State.reset = .next t) ∧ ∃ t, exec .ret State.reset = .next t := ⟨⟨_, rfl⟩, _, rfl⟩

theorem witness_OnlyFlagOperationsWriteTheFlag :
    ∃ t, State.reset.status = .running ∧ exec (.load 0xE) State.reset = .next t ∧ t.status = .running ∧ (0xE : Reg) ≠ 0xF :=
  ⟨_, rfl, rfl, rfl, by decide⟩

/-- A step that changes `I`, one that changes the stack, one that changes the framebuffer, one that changes memory, one that
changes `DT`: no clause is about nothing. -/
theorem witness_StateChangesOnlyThroughItsOwners :
    after State.reset 0xA2F0 (fun t => decide (t.i ≠ State.reset.i)) = true ∧
    after State.reset 0x2300 (fun t => decide (t.sp ≠ State.reset.sp)) = true ∧
    after { State.reset with i := 0x050 } 0xD005 (fun t => decide (t.fb ≠ State.reset.fb)) = true ∧
    after { regs 0 7 1 0 with i := 0x300 } 0xF055 (fun t => decide (t.byteAt 0x300 ≠ State.reset.byteAt 0x300)) = true ∧
    after (regs 0 7 1 0) 0xF015 (fun t => decide (t.dt ≠ State.reset.dt)) = true := by decide

theorem witness_OnlyRandomOperationReadsTheRandomByte : ∀ x nn, (placed 0x8124).instrAtPc ≠ some (.rnd x nn) := by
  intro x nn h
  rw [show (placed 0x8124).instrAtPc = some (.add 1 2) by decide] at h
  cases h

theorem witness_PerStepCouplingIsATickAfterTheStep :
    State.reset.cfg.timerCoupling = .independent ∧ (∃ t, stepWith 0 State.reset = .next t) ∧
      (State.reset.withCoupling .perStep).cfg.timerCoupling = .perStep ∧
      (State.reset.withCoupling .perStep).status = .running := ⟨rfl, ⟨_, rfl⟩, rfl, rfl⟩

theorem witness_EndOfRunIsFixed : EndOfRun halted ∧ EndOfRun (placed 0x1200) :=
  ⟨Or.inl (by decide), Or.inr ⟨by decide, 0x200, by decide, by decide⟩⟩

theorem witness_ReturnPopsOrUnderflows :
    ({ State.reset with sp := 1 }).sp.val = (0 : Fin 16).val + 1 ∧
      ({ State.reset with sp := 16 }).sp.val = (15 : Fin 16).val + 1 ∧ State.reset.sp.val = 0 := by decide

theorem witness_CallPushesOrOverflows :
    State.reset.sp.val = (0 : Fin 16).val ∧ ({ State.reset with sp := 15 }).sp.val = (15 : Fin 16).val ∧
      ({ State.reset with sp := 16 }).sp.val = 16 := by decide

/-- The state the call leaves is one the return may run in. -/
theorem witness_ReturnUndoesCall : ({ State.reset with sp := 15 }).sp.val < 16 ∧
    ∃ t, exec (.call 0x300) { State.reset with sp := 15 } = .next t ∧ ∃ u : State, u.sp = t.sp ∧ u.stack = t.stack :=
  ⟨by decide, _, rfl, _, rfl, rfl⟩

theorem witness_flag_result_elsewhere : (0xE : Reg) ≠ 0xF := by decide

theorem witness_DecimalDigitsAreStored : (indexed 0xFFD).i.toNat + 2 ≤ 0xFFF ∧ (indexed 0xFFE).i.toNat + 2 > 0xFFF := by decide

theorem witness_RegistersAreStored :
    (indexed 0xFF0).i.toNat + (0xF : Reg).val ≤ 0xFFF ∧ (0xF : Reg) ≤ 0xF ∧
      (indexed 0xFF1).i.toNat + (0xF : Reg).val > 0xFFF := by decide

theorem witness_RegistersAreLoaded :
    (indexed 0xFFF).i.toNat + (0 : Reg).val ≤ 0xFFF ∧ (0 : Reg) ≤ 0 ∧ (0 : Reg) < 1 ∧
      (indexed 0x1000).i.toNat + (0 : Reg).val > 0xFFF := by decide

theorem witness_MemoryReadsWhatWasWritten :
    0xFFF ≤ 0xFFF ∧ 0xFFF < 0x1000 ∧ Memory.wf State.reset.cfg State.reset.mem = true ∧
      Memory.wf (State.reset.setByte 0x300 7).cfg (State.reset.setByte 0x300 7).mem = true := by decide

/-- A later state with the memory the store leaves, `pc` at the stored word. -/
theorem witness_StoresAreSeenByTheFetch : (1 : Reg) ≤ 1 ∧ (indexed 0xFFE).i.toNat + (1 : Reg).val ≤ 0xFFF ∧
    ∃ t, exec (.store 1) (indexed 0xFFE) = .next t ∧
      ∃ u : State, (∀ a, u.byteAt a = t.byteAt a) ∧ u.pc = (indexed 0xFFE).i :=
  ⟨by decide, by decide, _, rfl, State.setPc _ 0xFFE, fun _ => rfl, rfl⟩

theorem witness_DrawTogglesTheSprite :
    15 < 16 ∧ (indexed 0xFF1).i.toNat + 15 - 1 ≤ 0xFFF ∧ 0 < 2 ∧ (indexed 0xFFF).i.toNat + 2 - 1 > 0xFFF := by decide

theorem witness_DrawingTwiceRestoresTheScreen :
    15 < 16 ∧ (0 : Reg) ≠ 0xF ∧ (0xE : Reg) ≠ 0xF ∧ (indexed 0xFF1).i.toNat + 15 - 1 ≤ 0xFFF ∧
      ∀ px py, px < 64 → py < 32 → (indexed 0xFF1).pixel px py = false := by
  refine ⟨by decide, by decide, by decide, by decide, fun px py _ hy => ?_⟩
  show fbGet (Vector.replicate 32 0) px py = false
  simp [fbGet, hy]

theorem witness_KeySkips :
    ((regs 1 0xF 2 0).reg 1).toNat = (0xF : Reg).val ∧ ((regs 1 0x10 2 0).reg 1).toNat > 0xF := by decide

theorem witness_KeyReadTakesTheLowestKeyOrWaits :
    (∀ k : Reg, State.reset.key[k] = false) ∧ (State.reset.setKey 0xF true).key[(0xF : Reg)] = true ∧
      ∀ j : Reg, j < 0xF → (State.reset.setKey 0xF true).key[j] = false := by decide

theorem witness_KeyWaitEndsOnlyByAKey : AwaitingKey (placed 0xF50A) ∧
    ∀ e ∈ [Event.step 7, .tick, .setKey 3 false, .readPixel 63 31, .step 0], e.leavesKeysUp := by
  refine ⟨⟨rfl, by decide, ⟨5, by decide⟩, by decide⟩, ?_⟩
  intro e he
  simp only [List.mem_cons, List.not_mem_nil, or_false] at he
  rcases he with rfl | rfl | rfl | rfl | rfl <;> first
    | exact trivial
    | rfl

theorem witness_LoadPlacesTheImage :
    (∃ image : List Byte, image.length = 3584) ∧ ∃ image : List Byte, image.length = 3585 :=
  ⟨⟨_, image_length 3584⟩, _, image_length 3585⟩

/-- Every load answers. -/
theorem load_answers (image : List Byte) (s : State) : ∃ t a, applyEvent (.load image) s = .next (t, a) :=
  ⟨(s.loadImage image).1, (s.loadImage image).2, rfl⟩

theorem witness_LoadWritesNothingElse :
    (∃ image : List Byte, image.length = 3584 ∧ ∃ t a, applyEvent (.load image) State.reset = .next (t, a)) ∧
      ∃ image : List Byte, image.length = 3585 ∧ ∃ t a, applyEvent (.load image) State.reset = .next (t, a) :=
  ⟨⟨_, image_length 3584, load_answers _ _⟩, _, image_length 3585, load_answers _ _⟩

theorem witness_StepKeepsTheInvariant : StateInv State.reset ∧ ∃ t, step State.reset = .next t :=
  ⟨⟨rfl, by decide, by decide, fun _ h => by cases h⟩, _, rfl⟩

theorem witness_RunsKeepTheInvariant : ∃ t, runEvents [.setKey 9 true, .step 0, .tick] State.reset = .next t := ⟨_, rfl⟩

theorem witness_PlacedWordRunsNext :
    State.reset.status = .running ∧ State.reset.fetchable ∧ State.reset.cfg.strict59 = true ∧
      decodeTableWord 16 0xF50A = some (.ldXK 5) := by decide

end Sys2Proof.Tests
end

section
/-! PROOFS. Encoding (30_encoding.md): what the decoder answers, group by group, and the rows of the opcode map. -/

namespace Sys2Proof

/-! ### The decoder by groups (R74, R77) -/

theorem fieldG_lt (w : Word) : fieldG w < 16 := (w.extractLsb' 12 4).isLt

theorem fieldN_lt (w : Word) : fieldN w < 16 := (w.extractLsb' 0 4).isLt

theorem decodeWord_group8 (strict : Bool) {w : Word} (hG : fieldG w = 8) : decodeWord strict w = decodeGroup8 w := by
  simp only [decodeWord, hG]

theorem decodeWord_groupE (strict : Bool) {w : Word} (hG : fieldG w = 0xE) : decodeWord strict w = decodeGroupE w := by
  simp only [decodeWord, hG]

theorem decodeWord_groupF (strict : Bool) {w : Word} (hG : fieldG w = 0xF) : decodeWord strict w = decodeGroupF w := by
  simp only [decodeWord, hG]

/-- In the groups whose operation the group alone selects, every word decodes. -/
theorem decodeWord_isSome_of_wholeGroup (strict : Bool) {w : Word}
    (hG : fieldG w ∈ [1, 2, 3, 4, 6, 7, 0xA, 0xB, 0xC, 0xD]) : (decodeWord strict w).isSome = true := by
  simp only [List.mem_cons, List.not_mem_nil, or_false] at hG
  rcases hG with h | h | h | h | h | h | h | h | h | h <;> simp only [decodeWord, h, Option.isSome_some]

/-- R76: a word of group 5 or 9 decodes when N = 0, and for every N when the decoder is not strict. -/
theorem decodeWord_isSome_group5_9 {strict : Bool} {w : Word} (hG : fieldG w = 5 ∨ fieldG w = 9)
    (hN : strict = true → fieldN w = 0) : (decodeWord strict w).isSome = true := by
  have hcond : (strict && fieldN w != 0) = false := by
    cases strict with
    | false => rfl
    | true => simp [hN rfl]
  rcases hG with h | h <;> simp [decodeWord, h, hcond]

/-- R76: `STRICT_5_9` matters in groups 5 and 9 only. -/
theorem decodeWord_strict_irrelevant (strict strict' : Bool) {w : Word} (h5 : fieldG w ≠ 5) (h9 : fieldG w ≠ 9) :
    decodeWord strict w = decodeWord strict' w := by
  unfold decodeWord
  split
  case h_6 h => exact absurd h h5
  case h_10 h => exact absurd h h9
  all_goals rfl

theorem decodeGroup8_isSome_iff (w : Word) :
    (decodeGroup8 w).isSome = true ↔ fieldN w ∈ [0, 1, 2, 3, 4, 5, 6, 7, 0xE] := by
  unfold decodeGroup8
  split
  case h_10 => simp_all
  all_goals simp [*]

/-- The chain of tests answers an instruction exactly when one of them holds. -/
theorem decodeGroupE_isSome_iff (w : Word) : (decodeGroupE w).isSome = true ↔ fieldNN w ∈ [0x9E, 0xA1] := by
  simp [decodeGroupE, apply_ite Option.isSome]

/-- The chain of tests answers an instruction exactly when one of them holds. -/
theorem decodeGroupF_isSome_iff (w : Word) :
    (decodeGroupF w).isSome = true ↔ fieldNN w ∈ [0x07, 0x0A, 0x15, 0x18, 0x1E, 0x29, 0x33, 0x55, 0x65] := by
  simp [decodeGroupF, apply_ite Option.isSome]

/-- Settles O6: each group's decoder on the fields of the encoded word; `exec` of 8XY6 and 8XYE does not read Y. -/
theorem subOperationsOfGroupsEightEAndF : Obligations.SubOperationsOfGroupsEightEAndF := by
  refine ⟨fun strict x y n hn => ?_, fun strict x nn => ?_, fun strict x nn => ?_, fun x y y' s => ⟨rfl, rfl⟩⟩
  · rw [decodeWord_group8 strict (fieldG_encodeXYN 8 (by omega) x y n hn), decodeGroup8_isSome_iff,
      fieldN_encodeXYN 8 (by omega) x y n hn]
  · rw [decodeWord_groupE strict (fieldG_encodeXNN 0xE (by omega) x nn), decodeGroupE_isSome_iff,
      fieldNN_encodeXNN 0xE (by omega) x nn]
  · rw [decodeWord_groupF strict (fieldG_encodeXNN 0xF (by omega) x nn), decodeGroupF_isSome_iff,
      fieldNN_encodeXNN 0xF (by omega) x nn]

/-! ### The word of a decoded instruction (R74, R83) -/

theorem encodeNNN_of_fields {w : Word} {g : Nat} (hG : fieldG w = g) : encodeNNN g (fieldNNN w) = w :=
  hG ▸ (eq_encodeNNN w).symm

theorem encodeXNN_of_fields {w : Word} {g : Nat} {nn : Byte} (hG : fieldG w = g) (hNN : fieldNN w = nn) :
    encodeXNN g (fieldX w) nn = w :=
  hG ▸ hNN ▸ (eq_encodeXNN w).symm

theorem encodeXYN_of_fields {w : Word} {g n : Nat} (hG : fieldG w = g) (hN : fieldN w = n) :
    encodeXYN g (fieldX w) (fieldY w) n = w :=
  hG ▸ hN ▸ (eq_encodeXYN w).symm

theorem encode_of_decodeGroup8 {w : Word} {i : Instr} (hG : fieldG w = 8) (h : decodeGroup8 w = some i) :
    i.WellFormed ∧ encode i = w := by
  unfold decodeGroup8 at h
  split at h <;> cases h <;> exact ⟨rfl, encodeXYN_of_fields hG ‹_›⟩

theorem encode_of_decodeGroupE {w : Word} {i : Instr} (hG : fieldG w = 0xE) (h : decodeGroupE w = some i) :
    i.WellFormed ∧ encode i = w := by
  simp only [decodeGroupE] at h
  repeat' split at h
  all_goals cases h
  all_goals exact ⟨rfl, encodeXNN_of_fields hG ‹_›⟩

theorem encode_of_decodeGroupF {w : Word} {i : Instr} (hG : fieldG w = 0xF) (h : decodeGroupF w = some i) :
    i.WellFormed ∧ encode i = w := by
  simp only [decodeGroupF] at h
  repeat' split at h
  all_goals cases h
  all_goals exact ⟨rfl, encodeXNN_of_fields hG ‹_›⟩

/-- What the strict decoder answers is well formed, and its encoding is the word decoded. -/
theorem encode_of_decodeWord_strict {w : Word} {i : Instr} (h : decodeWord true w = some i) :
    i.WellFormed ∧ encode i = w := by
  unfold decodeWord at h
  split at h
  case h_1 =>
    split_ifs at h with hcls hret <;> cases h
    · exact ⟨rfl, hcls.symm⟩
    · exact ⟨rfl, hret.symm⟩
  case h_6 hG | h_10 hG =>
    split_ifs at h with hN
    cases h
    exact ⟨rfl, encodeXYN_of_fields hG (by simpa using hN)⟩
  case h_2 hG | h_3 hG | h_11 hG | h_12 hG => cases h; exact ⟨rfl, encodeNNN_of_fields hG⟩
  case h_4 hG | h_5 hG | h_7 hG | h_8 hG | h_13 hG => cases h; exact ⟨rfl, encodeXNN_of_fields hG rfl⟩
  case h_9 hG => exact encode_of_decodeGroup8 hG h
  case h_14 hG => cases h; exact ⟨decide_eq_true (fieldN_lt w), encodeXYN_of_fields hG rfl⟩
  case h_15 hG => exact encode_of_decodeGroupE hG h
  case h_16 hG => exact encode_of_decodeGroupF hG h
  case h_17 => cases h

/-! ### The rows of the opcode map (R81) -/

/-- Every well-formed instruction's word stands in the instruction's row. -/
theorem encode_selects_row : ∀ i : Instr, Laws.MatchesRow.Statement i
  | .cls => Laws.MatchesRow.cls
  | .ret => Laws.MatchesRow.ret
  | .jp nnn => Laws.MatchesRow.jp nnn
  | .call nnn => Laws.MatchesRow.call nnn
  | .seImm x nn => Laws.MatchesRow.seImm x nn
  | .sneImm x nn => Laws.MatchesRow.sneImm x nn
  | .seReg x y => Laws.MatchesRow.seReg x y
  | .ldImm x nn => Laws.MatchesRow.ldImm x nn
  | .addImm x nn => Laws.MatchesRow.addImm x nn
  | .mov x y => Laws.MatchesRow.mov x y
  | .or x y => Laws.MatchesRow.or x y
  | .and x y => Laws.MatchesRow.and x y
  | .xor x y => Laws.MatchesRow.xor x y
  | .add x y => Laws.MatchesRow.add x y
  | .sub x y => Laws.MatchesRow.sub x y
  | .shr x y => Laws.MatchesRow.shr x y
  | .subn x y => Laws.MatchesRow.subn x y
  | .shl x y => Laws.MatchesRow.shl x y
  | .sneReg x y => Laws.MatchesRow.sneReg x y
  | .ldI nnn => Laws.MatchesRow.ldI nnn
  | .jpV0 nnn => Laws.MatchesRow.jpV0 nnn
  | .rnd x nn => Laws.MatchesRow.rnd x nn
  | .drw x y n => Laws.MatchesRow.drw x y n
  | .skp x => Laws.MatchesRow.skp x
  | .sknp x => Laws.MatchesRow.sknp x
  | .ldXDt x => Laws.MatchesRow.ldXDt x
  | .ldXK x => Laws.MatchesRow.ldXK x
  | .ldDtX x => Laws.MatchesRow.ldDtX x
  | .ldStX x => Laws.MatchesRow.ldStX x
  | .addIX x => Laws.MatchesRow.addIX x
  | .ldFX x => Laws.MatchesRow.ldFX x
  | .bcd x => Laws.MatchesRow.bcd x
  | .store x => Laws.MatchesRow.store x
  | .load x => Laws.MatchesRow.load x

/-- A decoded word selects the row of its operation. -/
theorem selects_row_of_decodeWord {w : Word} {i : Instr} (h : decodeWord true w = some i) :
    selects w i.row = true ∧ i.row ∈ opcodeMap := by
  obtain ⟨hwf, rfl⟩ := encode_of_decodeWord_strict h
  exact encode_selects_row i hwf

theorem selects_iff (w : Word) (row : Word × Word) : selects w row = true ↔ w &&& row.2 = row.1 := by
  rw [selects, beq_iff_eq]

/-- A selected row agrees with the word on every bit its mask covers. -/
theorem and_eq_of_selects {w : Word} {row : Word × Word} (h : selects w row = true) (m : Word) (hm : row.2 &&& m = m) :
    w &&& m = row.1 &&& m := by
  rw [selects_iff] at h
  rw [← h, BitVec.and_assoc, hm]

theorem fieldG_of_selects {w : Word} {row : Word × Word} (h : selects w row = true) (hm : row.2 &&& 0xF000 = 0xF000) :
    fieldG w = fieldG row.1 := by
  have hand := congrArg BitVec.toNat (and_eq_of_selects h 0xF000 hm)
  rw [and_F000, and_F000] at hand
  rw [fieldG_toNat, fieldG_toNat]
  omega

theorem fieldN_of_selects {w : Word} {row : Word × Word} (h : selects w row = true) (hm : row.2 &&& 0xF00F = 0xF00F) :
    fieldN w = fieldN row.1 := by
  have hand := congrArg BitVec.toNat (and_eq_of_selects h 0xF00F hm)
  rw [and_F00F, and_F00F] at hand
  rw [fieldN_toNat, fieldN_toNat]
  omega

theorem fieldNN_of_selects {w : Word} {row : Word × Word} (h : selects w row = true) (hm : row.2 &&& 0xF0FF = 0xF0FF) :
    fieldNN w = fieldNN row.1 := by
  have hand := congrArg BitVec.toNat (and_eq_of_selects h 0xF0FF hm)
  rw [and_F0FF, and_F0FF] at hand
  apply BitVec.eq_of_toNat_eq
  rw [fieldNN_toNat, fieldNN_toNat]
  omega

/-- A word under two rows makes their matches agree where both masks are set. -/
theorem matches_agree_of_selects {w : Word} {row row' : Word × Word} (h : selects w row = true)
    (h' : selects w row' = true) : row.1 &&& row'.2 = row'.1 &&& row.2 := by
  rw [selects_iff] at h h'
  rw [← h, ← h', BitVec.and_assoc, BitVec.and_assoc, BitVec.and_comm row.2]

/-- Any two rows of the map differ in a bit that both masks cover. -/
theorem opcodeMap_matches_differ :
    opcodeMap.Pairwise (fun row row' => row.1 &&& row'.2 ≠ row'.1 &&& row.2) := by decide

/-- The rows by their mask: the whole word, the group, the group with N, the group with NN. -/
theorem opcodeMap_by_mask : ∀ row ∈ opcodeMap,
    (row.2 = 0xFFFF ∧ (row.1 = 0x00E0 ∨ row.1 = 0x00EE)) ∨
    (row.2 = 0xF000 ∧ fieldG row.1 ∈ [1, 2, 3, 4, 6, 7, 0xA, 0xB, 0xC, 0xD]) ∨
    (row.2 = 0xF00F ∧ (fieldG row.1 = 5 ∨ fieldG row.1 = 9) ∧ fieldN row.1 = 0) ∨
    (row.2 = 0xF00F ∧ fieldG row.1 = 8 ∧ fieldN row.1 ∈ [0, 1, 2, 3, 4, 5, 6, 7, 0xE]) ∨
    (row.2 = 0xF0FF ∧ fieldG row.1 = 0xE ∧ fieldNN row.1 ∈ [0x9E, 0xA1]) ∨
    (row.2 = 0xF0FF ∧ fieldG row.1 = 0xF ∧
      fieldNN row.1 ∈ [0x07, 0x0A, 0x15, 0x18, 0x1E, 0x29, 0x33, 0x55, 0x65]) := by decide

/-- Every mask of the map covers the group. -/
theorem opcodeMap_mask_group : ∀ row ∈ opcodeMap, row.2 &&& 0xF000 = 0xF000 := by
  intro row hrow
  rcases opcodeMap_by_mask row hrow with ⟨hm, -⟩ | ⟨hm, -⟩ | ⟨hm, -⟩ | ⟨hm, -⟩ | ⟨hm, -⟩ | ⟨hm, -⟩ <;>
    rw [hm] <;> rfl

/-- A word that selects a row of the map is an instruction. -/
theorem decodeWord_isSome_of_selects {w : Word} {row : Word × Word} (hrow : row ∈ opcodeMap)
    (h : selects w row = true) : (decodeWord true w).isSome = true := by
  have hG := fieldG_of_selects h (opcodeMap_mask_group row hrow)
  rcases opcodeMap_by_mask row hrow with
    ⟨hm, hw⟩ | ⟨-, hg⟩ | ⟨hm, hg, hn⟩ | ⟨hm, hg, hn⟩ | ⟨hm, hg, hnn⟩ | ⟨hm, hg, hnn⟩
  · have hword : w = row.1 := by
      have hsel := (selects_iff w row).mp h
      rwa [hm, show (0xFFFF : Word) = BitVec.allOnes 16 from rfl, BitVec.and_allOnes] at hsel
    rcases hw with e | e <;> rw [hword, e] <;> decide
  · exact decodeWord_isSome_of_wholeGroup true (hG ▸ hg)
  · exact decodeWord_isSome_group5_9 (hG ▸ hg) (fun _ => (fieldN_of_selects h (by rw [hm]; rfl)).trans hn)
  · rw [decodeWord_group8 true (hG.trans hg), decodeGroup8_isSome_iff, fieldN_of_selects h (by rw [hm]; rfl)]
    exact hn
  · rw [decodeWord_groupE true (hG.trans hg), decodeGroupE_isSome_iff, fieldNN_of_selects h (by rw [hm]; rfl)]
    exact hnn
  · rw [decodeWord_groupF true (hG.trans hg), decodeGroupF_isSome_iff, fieldNN_of_selects h (by rw [hm]; rfl)]
    exact hnn

/-- The strict decoder answers an instruction exactly for the words that select a row. -/
theorem decodeWord_strict_isSome_iff (w : Word) :
    (decodeWord true w).isSome = true ↔ ∃ row ∈ opcodeMap, selects w row = true := by
  constructor
  · intro h
    obtain ⟨i, hi⟩ := Option.isSome_iff_exists.mp h
    obtain ⟨hsel, hmem⟩ := selects_row_of_decodeWord hi
    exact ⟨i.row, hmem, hsel⟩
  · rintro ⟨row, hrow, h⟩
    exact decodeWord_isSome_of_selects hrow h

/-- A row as it stands with `STRICT_5_9 = false`: 5XY0 and 9XY0 do not look at N. -/
def relaxedRow (row : Word × Word) : Word × Word :=
  (row.1, if row.1 = 0x5000 ∨ row.1 = 0x9000 then 0xF000 else row.2)

/-- Outside groups 5 and 9 the relaxed map selects what the map does. -/
theorem selects_relaxedRow_iff {w : Word} {row : Word × Word} (hrow : row ∈ opcodeMap) (h5 : fieldG w ≠ 5)
    (h9 : fieldG w ≠ 9) : selects w (relaxedRow row) = true ↔ selects w row = true := by
  by_cases hmatch : row.1 = 0x5000 ∨ row.1 = 0x9000
  · have hgroup : fieldG w ≠ fieldG row.1 := by
      rcases hmatch with e | e <;> rw [e]
      · exact h5
      · exact h9
    have hmask : (relaxedRow row).2 = 0xF000 := if_pos hmatch
    constructor <;> intro h
    · exact absurd (fieldG_of_selects h (by rw [hmask]; rfl)) hgroup
    · exact absurd (fieldG_of_selects h (opcodeMap_mask_group row hrow)) hgroup
  · rw [relaxedRow, if_neg hmatch]

/-- A word of group 5 or 9 selects its group's relaxed row. -/
theorem exists_relaxedRow_group5_9 {w : Word} (hG : fieldG w = 5 ∨ fieldG w = 9) :
    ∃ row ∈ opcodeMap, selects w (relaxedRow row) = true := by
  have hand : (w &&& 0xF000).toNat = fieldG w * 0x1000 := by rw [and_F000, fieldG_toNat]
  rcases hG with h | h <;> rw [h] at hand
  · exact ⟨(0x5000, 0xF00F), by decide, (selects_iff _ _).mpr (BitVec.eq_of_toNat_eq hand)⟩
  · exact ⟨(0x9000, 0xF00F), by decide, (selects_iff _ _).mpr (BitVec.eq_of_toNat_eq hand)⟩

/-- With `STRICT_5_9 = false` the relaxed rows decide decoding. -/
theorem decodeWord_relaxed_isSome_iff (w : Word) :
    (decodeWord false w).isSome = true ↔ ∃ row ∈ opcodeMap, selects w (relaxedRow row) = true := by
  by_cases hG : fieldG w = 5 ∨ fieldG w = 9
  · exact iff_of_true (decodeWord_isSome_group5_9 hG (by simp)) (exists_relaxedRow_group5_9 hG)
  · obtain ⟨h5, h9⟩ := not_or.mp hG
    rw [decodeWord_strict_irrelevant false true h5 h9, decodeWord_strict_isSome_iff]
    exact exists_congr fun row => and_congr_right fun hrow => (selects_relaxedRow_iff hrow h5 h9).symm

/-- Settles O7: a decoded word selects its operation's row, a selected row fixes the fields the decoder looks at, and
two rows differ in a bit both masks cover. -/
theorem opcodeMapDecidesDecoding : Obligations.OpcodeMapDecidesDecoding :=
  ⟨rfl, decodeWord_strict_isSome_iff, fun _ _ => selects_row_of_decodeWord,
    opcodeMap_matches_differ.imp fun hdiff _ ⟨h, h'⟩ => hdiff (matches_agree_of_selects h h'),
    decodeWord_relaxed_isSome_iff⟩

end Sys2Proof
end

section
/-! PROOFS. What an operation writes when it completes, and the flag register (30_encoding.md R78). -/

namespace Sys2Proof.Machine

/-! ### What the execute phase can answer (10_state.md R22, R26; 60_exceptions.md R221) -/

/-- `exec i s = .next t`: either `i` completed and changed only its own parts, or it took its one fault. -/
def CompletesOrFaults (i : Instr) (s t : State) : Prop :=
  Frame (partsWritten s i) s t ∨ ∃ kind info, OwnFault s kind info i ∧ FaultEntry kind (encode i) info s t

/-- The frame of an operation that always completes, in the state `u`. -/
theorem completes_of_frame {i : Instr} {s t u : State} (hf : Frame (partsWritten s i) s u)
    (h : (.next u : Outcome) = .next t) : CompletesOrFaults i s t := by
  cases h
  exact .inl hf

/-- An operation that raises its own fault. -/
theorem faults_of_raise {i : Instr} {s t : State} {kind : FaultKind} {info : Word}
    (hown : OwnFault s kind info.toNat i) (h : raise kind i info s = .next t) : CompletesOrFaults i s t := by
  obtain ⟨u, hu, hentry⟩ := raise_next kind i info s
  cases hu.symm.trans h
  exact .inr ⟨kind, info.toNat, hown, hentry⟩

theorem State.sp_of_push_none {s : State} {w : Word} (h : s.push w = none) : s.sp.val = 16 := by
  by_contra hne
  have hlt : s.sp.val < 16 := by have := s.sp.isLt; omega
  rw [s.push_spec w hlt] at h
  cases h

theorem State.sp_of_pop_none {s : State} (h : s.pop = none) : s.sp.val = 0 := by
  by_contra hne
  rw [s.pop_spec (Nat.pos_of_ne_zero hne)] at h
  cases h

theorem toNat_of_keyNumber_none {b : Byte} (h : keyNumber b = none) : 0xF < b.toNat := by
  by_contra hle
  rw [keyNumber_some b (by omega)] at h
  cases h

theorem execRet_completesOrFaults {s t : State} (h : execRet s = .next t) : CompletesOrFaults .ret s t := by
  unfold execRet at h
  split at h
  next hpop =>
    have hsp := State.sp_of_pop_none hpop
    exact faults_of_raise ⟨rfl, hsp, by rw [hsp]; rfl⟩ h
  next w u hpop =>
    exact completes_of_frame (((frame_pop hpop).mono (by simp [partsWritten])).trans
      ((frame_setPc u w).mono (by simp [partsWritten]))) h

theorem execCall_completesOrFaults {nnn : Addr12} {s t : State} (h : execCall nnn s = .next t) :
    CompletesOrFaults (.call nnn) s t := by
  unfold execCall at h
  split at h
  next hpush =>
    have hsp := State.sp_of_push_none hpush
    exact faults_of_raise ⟨rfl, hsp, by rw [hsp]; rfl⟩ h
  next u hpush =>
    exact completes_of_frame (((frame_push hpush).mono (by simp [partsWritten])).trans
      ((frame_setPc u _).mono (by simp [partsWritten]))) h

theorem execDrw_completesOrFaults {x y : Reg} {n : Nat} {s t : State} (h : execDrw x y n s = .next t) :
    CompletesOrFaults (.drw x y n) s t := by
  unfold execDrw at h
  split at h
  next e he => exact faults_of_raise ⟨rfl, firstOutOfRange_eq_some _ _ _ he⟩ h
  next =>
    exact completes_of_frame (((frame_setFb s _).mono (by simp [partsWritten])).trans
      ((frame_setReg _ flagReg _).mono (by simp [partsWritten]))) h

theorem execBcd_completesOrFaults {x : Reg} {s t : State} (h : execBcd x s = .next t) :
    CompletesOrFaults (.bcd x) s t := by
  unfold execBcd at h
  split at h
  next e he => exact faults_of_raise ⟨rfl, (firstOutOfRange_eq_some _ _ _ he).2⟩ h
  next => exact completes_of_frame (frame_writeBytes s s.base (bcdDigits (s.reg x))) h

theorem execStore_completesOrFaults {x : Reg} {s t : State} (h : execStore x s = .next t) :
    CompletesOrFaults (.store x) s t := by
  unfold execStore at h
  split at h
  next e he => exact faults_of_raise ⟨rfl, (firstOutOfRange_eq_some _ _ _ he).2⟩ h
  next =>
    have hf := frame_writeBytes s s.base ((regsUpTo x).map s.reg)
    rw [List.length_map, regsUpTo_length] at hf
    exact completes_of_frame hf h

theorem execLoad_completesOrFaults {x : Reg} {s t : State} (h : execLoad x s = .next t) :
    CompletesOrFaults (.load x) s t := by
  unfold execLoad at h
  split at h
  next e he => exact faults_of_raise ⟨rfl, (firstOutOfRange_eq_some _ _ _ he).2⟩ h
  next => exact completes_of_frame (frame_loadRegs s s.base (regsUpTo x)) h

theorem execSkp_completesOrFaults {x : Reg} {s t : State} (h : execSkp x s = .next t) :
    CompletesOrFaults (.skp x) s t := by
  unfold execSkp at h
  split at h
  next hk => exact faults_of_raise ⟨rfl, toNat_of_keyNumber_none hk, zextByte_toNat _⟩ h
  next => exact completes_of_frame (frame_skipIf s _) h

theorem execSknp_completesOrFaults {x : Reg} {s t : State} (h : execSknp x s = .next t) :
    CompletesOrFaults (.sknp x) s t := by
  unfold execSknp at h
  split at h
  next hk => exact faults_of_raise ⟨rfl, toNat_of_keyNumber_none hk, zextByte_toNat _⟩ h
  next => exact completes_of_frame (frame_skipIf s _) h

theorem execLdXK_completesOrFaults {x : Reg} {s t : State} (h : execLdXK x s = .next t) :
    CompletesOrFaults (.ldXK x) s t := by
  unfold execLdXK at h
  split at h
  next => exact completes_of_frame ((frame_setPc s _).mono (by simp [partsWritten])) h
  next => exact completes_of_frame ((frame_setReg s x _).mono (by simp [partsWritten])) h

/-- What the execute phase can answer, for every instruction. -/
theorem exec_completesOrFaults {i : Instr} {s t : State} (h : exec i s = .next t) : CompletesOrFaults i s t := by
  cases i with
  | cls => exact completes_of_frame (frame_setFb s _) h
  | ret => exact execRet_completesOrFaults h
  | call nnn => exact execCall_completesOrFaults h
  | jp nnn | jpV0 nnn => exact completes_of_frame (frame_setPc s _) h
  | seImm x nn | sneImm x nn => exact completes_of_frame (frame_skipIf s _) h
  | seReg x y | sneReg x y => exact completes_of_frame (frame_skipIf s _) h
  | ldImm x nn | addImm x nn => exact completes_of_frame (frame_setReg s x _) h
  | mov x y | or x y | and x y | xor x y => exact completes_of_frame (frame_setReg s x _) h
  | ldXDt x => exact completes_of_frame (frame_setReg s x _) h
  | add x y | sub x y | shr x y | subn x y | shl x y => exact completes_of_frame (frame_setRegFlag s x _ _) h
  | rnd x nn =>
    exact completes_of_frame (((frame_setReg s x _).mono (by simp [partsWritten])).trans
      ((frame_drawn _).mono (by simp [partsWritten]))) h
  | drw x y n => exact execDrw_completesOrFaults h
  | skp x => exact execSkp_completesOrFaults h
  | sknp x => exact execSknp_completesOrFaults h
  | ldXK x => exact execLdXK_completesOrFaults h
  | ldDtX x => exact completes_of_frame (frame_setDt s _) h
  | ldStX x => exact completes_of_frame (frame_setSt s _) h
  | ldI nnn => exact completes_of_frame (frame_setI s _) h
  | addIX x | ldFX x => exact completes_of_frame (frame_setI s _) h
  | bcd x => exact execBcd_completesOrFaults h
  | store x => exact execStore_completesOrFaults h
  | load x => exact execLoad_completesOrFaults h

/-- An operation that leaves the core running has completed. -/
theorem exec_frame_of_running {i : Instr} {s t : State} (h : exec i s = .next t) (ht : t.status = .running) :
    Frame (partsWritten s i) s t := by
  rcases exec_completesOrFaults h with hf | ⟨kind, info, -, hentry⟩
  · exact hf
  · rw [hentry.status] at ht
    cases ht

/-! ### The flag register (R78) -/

theorem State.flag_setFlag (s : State) (c : Bool) : (s.setFlag c).reg 0xF = 0 ∨ (s.setFlag c).reg 0xF = 1 := by
  rw [State.setFlag, State.reg_setReg_same]
  cases c
  · exact .inl rfl
  · exact .inr rfl

/-- A DXYN that completes wrote VF last. -/
theorem execDrw_flag {x y : Reg} {n : Nat} {s t : State} (h : execDrw x y n s = .next t) (ht : t.status = .running) :
    t.reg 0xF = 0 ∨ t.reg 0xF = 1 := by
  unfold execDrw at h
  split at h
  next => cases h; cases ht
  next => cases h; exact State.flag_setFlag _ _

/-- A load writes VF only as its last register, VX with X = 0xF. -/
theorem flagReg_not_mem_regParts {x : Reg} (hx : x ≠ 0xF) : Part.reg 0xF ∉ regParts (regsUpTo x) := by
  simp only [regParts, List.mem_map, mem_regsUpTo, Part.reg.injEq, exists_eq_right]
  exact fun hle => hx (le_antisymm (Fin.le_last x) hle)

/-- Settles O16: a flag operation writes VF last and with 0 or 1; of any other, VF is no part it writes unless it is the
destination. -/
theorem onlyFlagOperationsWriteTheFlag : Obligations.OnlyFlagOperationsWriteTheFlag := by
  intro i s t _ h ht
  have hf := exec_frame_of_running h ht
  cases i with
  | add x y | sub x y | shr x y | subn x y | shl x y =>
    obtain rfl := Host.Outcome.next.inj h
    exact State.flag_setFlag _ _
  | drw x y n => exact execDrw_flag h ht
  | ldImm x nn | addImm x nn | rnd x nn => exact fun hx => hf.regs 0xF (by simp [partsWritten, hx.symm])
  | mov x y | or x y | and x y | xor x y => exact fun hx => hf.regs 0xF (by simp [partsWritten, hx.symm])
  | ldXDt x | ldXK x => exact fun hx => hf.regs 0xF (by simp [partsWritten, hx.symm])
  | load x => exact fun hx => hf.regs 0xF (flagReg_not_mem_regParts hx)
  | cls | ret => exact hf.regs 0xF (by simp [partsWritten])
  | jp nnn | call nnn | ldI nnn | jpV0 nnn => exact hf.regs 0xF (by simp [partsWritten])
  | seImm x nn | sneImm x nn => exact hf.regs 0xF (by simp [partsWritten])
  | seReg x y | sneReg x y => exact hf.regs 0xF (by simp [partsWritten])
  | skp x | sknp x | ldDtX x | ldStX x | addIX x | ldFX x | bcd x | store x =>
    exact hf.regs 0xF (by simp [partsWritten])

end Sys2Proof.Machine
end

section
/-! PROOFS. Decoding what was encoded, and the row its word stands in (30_encoding.md R74, R81, R83). -/

namespace Sys2Proof

/-- The decoder reads each format's fields back from the word, under both values of `STRICT_5_9`. -/
theorem decodeWord_encode (strict : Bool) {i : Instr} (hi : i.WellFormed) : decodeWord strict (encode i) = some i := by
  cases i with
  | cls | ret => rfl
  | jp nnn | call nnn | ldI nnn | jpV0 nnn => simp [encode, decodeWord, fieldG_encodeNNN, fieldNNN_encodeNNN]
  | seImm x nn | sneImm x nn | ldImm x nn | addImm x nn | rnd x nn =>
    simp [encode, decodeWord, fieldG_encodeXNN, fieldX_encodeXNN, fieldNN_encodeXNN]
  | seReg x y | sneReg x y =>
    simp [encode, decodeWord, fieldG_encodeXYN, fieldX_encodeXYN, fieldY_encodeXYN, fieldN_encodeXYN]
  | mov x y | or x y | and x y | xor x y | add x y | sub x y | shr x y | subn x y | shl x y =>
    simp [encode, decodeWord_group8, decodeGroup8, fieldG_encodeXYN, fieldX_encodeXYN, fieldY_encodeXYN, fieldN_encodeXYN]
  | drw x y n =>
    have hn : n < 16 := of_decide_eq_true hi
    simp [encode, decodeWord, fieldG_encodeXYN, fieldX_encodeXYN, fieldY_encodeXYN, fieldN_encodeXYN, hn]
  | skp x | sknp x =>
    simp [encode, decodeWord_groupE, decodeGroupE, fieldG_encodeXNN, fieldX_encodeXNN, fieldNN_encodeXNN]
  | ldXDt x | ldXK x | ldDtX x | ldStX x | addIX x | ldFX x | bcd x | store x | load x =>
    simp [encode, decodeWord_groupF, decodeGroupF, fieldG_encodeXNN, fieldX_encodeXNN, fieldNN_encodeXNN]

end Sys2Proof

namespace Sys2Proof.Machine

/-- A well-formed instruction has the match and mask of its row. -/
theorem encoded_row (i : Instr) (hi : i.WellFormed) : Encoded i i.row.1 i.row.2 :=
  ⟨(selects_iff _ _).mp (encode_selects_row i hi).1, fun strict => decodeWord_encode strict hi⟩

end Sys2Proof.Machine
end

section
/-! PROOFS. Jumps and skips (41_control_flow.md R122, R124, R125, R128). -/

namespace Sys2Proof.Machine

/-- The target of BNNN is at most 0xFF + 0xFFF, so the sum does not wrap. -/
theorem zextByte_add_zextAddr_toNat (b : Byte) (a : Addr12) : (zextByte b + zextAddr a).toNat = b.toNat + a.toNat := by
  have hb := b.isLt
  have ha := a.isLt
  rw [BitVec.toNat_add, zextByte_toNat, zextAddr_toNat]
  omega

theorem State.skipIf_pc (s : State) (c : Bool) : (s.skipIf c).pc = if c then s.pc + 2 else s.pc := by
  rw [State.skipIf_eq_setPc, State.setPc_pc]

theorem State.skipIf_beq_pc (s : State) (a b : Byte) : (s.skipIf (a == b)).pc = if a = b then s.pc + 2 else s.pc := by
  simp only [State.skipIf_pc, beq_iff_eq]

theorem State.skipIf_bne_pc (s : State) (a b : Byte) : (s.skipIf (a != b)).pc = if a = b then s.pc else s.pc + 2 := by
  simp only [State.skipIf_pc, bne_iff_ne, ne_eq, ite_not]

/-- Settles O24: each jump is one write of `pc`, whose frame is `[.pc]`. -/
theorem jumpsSetThePc : Obligations.JumpsSetThePc := by
  intro nnn s
  constructor
  · exact ⟨encoded_row (.jp nnn) rfl, _, rfl, zextAddr_toNat nnn, frame_setPc s _⟩
  · exact ⟨encoded_row (.jpV0 nnn) rfl, _, rfl, zextByte_add_zextAddr_toNat (s.reg 0) nnn, frame_setPc s _⟩

/-- Settles O25: each skip is `State.skipIf` on its comparison of V[X] with NN. -/
theorem immediateSkips : Obligations.ImmediateSkips := by
  intro x nn s
  constructor
  · exact ⟨encoded_row (.seImm x nn) rfl, _, rfl, State.skipIf_beq_pc s (s.reg x) nn, frame_skipIf s _⟩
  · exact ⟨encoded_row (.sneImm x nn) rfl, _, rfl, State.skipIf_bne_pc s (s.reg x) nn, frame_skipIf s _⟩

end Sys2Proof.Machine
end

section
/-! PROOFS. Register and arithmetic operations (42_alu.md R140 to R150). -/

namespace Sys2Proof.Machine

/-! ### Results and flags as numbers -/

/-- The remainder of R12 is not negative, as Lean's `Int` remainder by 256 is. -/
theorem diffByte_toNat_eq_emod (a b : Byte) :
    ((diffByte a b).toNat : Int) = ((a.toNat : Int) - (b.toNat : Int)) % 256 := by
  have := b.isLt
  rw [diffByte_toNat]
  omega

theorem flagByte_carryOut_toNat (a b : Byte) :
    (flagByte (carryOut a b)).toNat = if a.toNat + b.toNat > 255 then 1 else 0 := by
  simp only [flagByte_toNat, carryOut, decide_eq_true_eq]

theorem flagByte_noBorrow_toNat (a b : Byte) :
    (flagByte (noBorrow a b)).toNat = if a.toNat ≥ b.toNat then 1 else 0 := by
  simp only [flagByte_toNat, noBorrow, decide_eq_true_eq]

/-- The bit shifted out to the right is the remainder of the halving. -/
theorem flagByte_lowBitOut_toNat (a : Byte) : (flagByte (lowBitOut a)).toNat = a.toNat % 2 := by
  simp only [flagByte_toNat, lowBitOut_eq, decide_eq_true_eq]
  split <;> omega

/-- The bit shifted out to the left is the carry of the doubling. -/
theorem flagByte_highBitOut_toNat (a : Byte) : (flagByte (highBitOut a)).toNat = a.toNat / 128 := by
  have := a.isLt
  simp only [flagByte_toNat, highBitOut_eq, decide_eq_true_eq]
  split <;> omega

/-! ### The write order of 40_step.md R106 -/

theorem State.reg_setRegFlag_dest (s : State) {x : Reg} (hx : x ≠ 0xF) (b : Byte) (c : Bool) :
    (s.setRegFlag x b c).reg x = b := by
  rw [State.reg_setRegFlag, if_neg hx, if_pos rfl]

/-- VF is written last, so it holds the flag whatever X is. -/
theorem State.reg_setRegFlag_flag (s : State) (x : Reg) (b : Byte) (c : Bool) :
    (s.setRegFlag x b c).reg 0xF = flagByte c := by
  rw [State.reg_setRegFlag, if_pos rfl]

/-! ### Operations that write V[X] alone -/

/-- Settles O27: both moves are one write of V[X], whose frame is `[.reg x]`. -/
theorem registerMoves : Obligations.RegisterMoves := by
  intro x y nn s
  constructor
  · exact ⟨encoded_row (.ldImm x nn) rfl, _, rfl, State.reg_setReg_same s x nn, frame_setReg s x _⟩
  · exact ⟨encoded_row (.mov x y) rfl, _, rfl, State.reg_setReg_same s x (s.reg y), frame_setReg s x _⟩

/-- Settles O28: 7XNN is one write of V[X], so VF is in its frame unless it is V[X]. -/
theorem addImmediateWrapsWithoutFlag : Obligations.AddImmediateWrapsWithoutFlag := by
  intro x nn s
  refine ⟨encoded_row (.addImm x nn) rfl, _, rfl, ?_, frame_setReg s x _⟩
  rw [State.reg_setReg_same, sumByte_toNat]

/-- Settles O29: each logical operation is one write of V[X], and its value is read bit by bit. -/
theorem logicalOperations : Obligations.LogicalOperations := by
  intro x y s
  refine ⟨⟨encoded_row (.or x y) rfl, _, rfl, frame_setReg s x _, fun k => ?_⟩,
    ⟨encoded_row (.and x y) rfl, _, rfl, frame_setReg s x _, fun k => ?_⟩,
    ⟨encoded_row (.xor x y) rfl, _, rfl, frame_setReg s x _, fun k => ?_⟩⟩
  · rw [State.reg_setReg_same, BitVec.getLsbD_or]
  · rw [State.reg_setReg_same, BitVec.getLsbD_and]
  · rw [State.reg_setReg_same, BitVec.getLsbD_xor, Bool.bne_eq_xor]

/-! ### Operations that write V[X] and then the flag -/

/-- Settles O30: 8XY4 writes the sum and then the carry, both taken from the registers before the step. -/
theorem addReportsTheCarry : Obligations.AddReportsTheCarry := by
  intro x y s
  refine ⟨encoded_row (.add x y) rfl, _, rfl, fun hx => ?_, ?_, frame_setRegFlag s x _ _⟩
  · rw [State.reg_setRegFlag_dest s hx, sumByte_toNat]
  · rw [State.reg_setRegFlag_flag, flagByte_carryOut_toNat]

/-- A subtraction from `a` of `b` into V[X]; 8XY5 and 8XY7 are its two uses. -/
theorem State.setRegFlag_diffByte (s : State) (x : Reg) (a b : Byte) :
    (x ≠ 0xF → (((s.setRegFlag x (diffByte a b) (noBorrow a b)).reg x).toNat : Int) =
      ((a.toNat : Int) - (b.toNat : Int)) % 256) ∧
    ((s.setRegFlag x (diffByte a b) (noBorrow a b)).reg 0xF).toNat = (if a.toNat ≥ b.toNat then 1 else 0) ∧
    Frame [.reg x, .reg 0xF] s (s.setRegFlag x (diffByte a b) (noBorrow a b)) := by
  refine ⟨fun hx => ?_, ?_, frame_setRegFlag s x _ _⟩
  · rw [State.reg_setRegFlag_dest s hx, diffByte_toNat_eq_emod]
  · rw [State.reg_setRegFlag_flag, flagByte_noBorrow_toNat]

/-- Settles O31: 8XY5 subtracts V[Y] from V[X], 8XY7 V[X] from V[Y], both into V[X]. -/
theorem subtractionsReportNoBorrow : Obligations.SubtractionsReportNoBorrow := by
  intro x y s
  constructor
  · exact ⟨encoded_row (.sub x y) rfl, _, rfl, State.setRegFlag_diffByte s x (s.reg x) (s.reg y)⟩
  · exact ⟨encoded_row (.subn x y) rfl, _, rfl, State.setRegFlag_diffByte s x (s.reg y) (s.reg x)⟩

/-- Settles O32: 8XY6 and 8XYE write the shifted V[X] and then the bit shifted out. -/
theorem shiftsReportTheBitShiftedOut : Obligations.ShiftsReportTheBitShiftedOut := by
  intro x y s
  constructor
  · refine ⟨encoded_row (.shr x y) rfl, _, rfl, fun hx => ?_, ?_, frame_setRegFlag s x _ _⟩
    · rw [State.reg_setRegFlag_dest s hx, halfByte_toNat]
    · rw [State.reg_setRegFlag_flag, flagByte_lowBitOut_toNat]
  · refine ⟨encoded_row (.shl x y) rfl, _, rfl, fun hx => ?_, ?_, frame_setRegFlag s x _ _⟩
    · rw [State.reg_setRegFlag_dest s hx, doubleByte_toNat]
    · rw [State.reg_setRegFlag_flag, flagByte_highBitOut_toNat]

end Sys2Proof.Machine
end

section
/-! PROOFS. The index register (43_index_memory.md R170). -/

namespace Sys2Proof.Machine

/-- Settles O34: ANNN is one write of `I` with the zero-extended NNN, and the frame of that write is `[.index]`. -/
theorem loadIndexSetsTheIndex : Obligations.LoadIndexSetsTheIndex := by
  intro nnn s
  refine ⟨encoded_row (.ldI nnn) rfl, _, rfl, ?_, frame_setI s _⟩
  rw [State.setI_i, zextAddr_toNat]

end Sys2Proof.Machine
end

section
/-! PROOFS. The framebuffer cleared (44_display.md R190). -/

namespace Sys2Proof.Machine

/-- A pixel read after the framebuffer is replaced is read in the new one. -/
theorem State.pixel_setFb (s : State) (f : Framebuffer) (px py : Nat) : (s.setFb f).pixel px py = fbGet f px py := by
  rw [State.pixel, State.setFb_fb]

/-- Settles O41: 00E0 is one write of the blank framebuffer, whose frame is `[.display]`. -/
theorem clearTurnsEveryPixelOff : Obligations.ClearTurnsEveryPixelOff := by
  refine ⟨encoded_row .cls rfl, fun s => ⟨s.setFb fbBlank, rfl, fun px py _ _ => ?_, frame_setFb s fbBlank⟩⟩
  rw [State.pixel_setFb, fbGet_blank]

end Sys2Proof.Machine
end

section
/-! PROOFS. The timer moves (45_keys_timers.md R202, R204, R205). -/

namespace Sys2Proof.Machine

/-- Settles O47: FX07 is one write of V[X], FX15 one of `DT`, FX18 one of `ST`, each with the frame of that write. -/
theorem timerMoves : Obligations.TimerMoves := by
  intro x s
  refine ⟨?fx07, ?fx15, ?fx18⟩
  case fx07 => exact ⟨encoded_row (.ldXDt x) rfl, _, rfl, State.reg_setReg_same s x s.dt, frame_setReg s x _⟩
  case fx15 => exact ⟨encoded_row (.ldDtX x) rfl, _, rfl, State.setDt_dt s (s.reg x), frame_setDt s _⟩
  case fx18 => exact ⟨encoded_row (.ldStX x) rfl, _, rfl, State.setSt_st s (s.reg x), frame_setSt s _⟩

end Sys2Proof.Machine
end

section
/-! PROOFS. Reset and program load (70_reset_and_hazards.md R250, R253). -/

namespace Sys2Proof.Machine

/-! ### What the two events answer -/

theorem State.loadImage_of_fits (s : State) {image : List Byte} (h : image.length ≤ 3584) :
    s.loadImage image = (s.writeBytes 0x200 image, .loadOk) :=
  if_neg (Nat.not_lt.mpr h)

theorem State.loadImage_of_tooLong (s : State) {image : List Byte} (h : image.length > 3584) :
    s.loadImage image = (s, .loadFault) :=
  if_pos h

theorem applyEvent_load (image : List Byte) (s : State) : applyEvent (.load image) s = .next (s.loadImage image) := rfl

theorem applyEvent_reset (s : State) : applyEvent .reset s = .next (s.resetEvent, .done) := rfl

/-- Settles O50: an image that fits is one `writeBytes` at 0x200, whose bytes read back; one byte too many is refused. -/
theorem loadPlacesTheImage : Obligations.LoadPlacesTheImage := by
  intro image s
  rw [applyEvent_load]
  constructor
  · intro hfits
    rw [State.loadImage_of_fits s hfits]
    exact ⟨_, rfl, State.byteAt_writeBytes_inside s 0x200 image⟩
  · intro hlong
    rw [State.loadImage_of_tooLong s hlong]
    exact ⟨s, rfl⟩

/-! ### The reset contents of memory (10_state.md R38) -/

/-- Byte `j` of glyph `d` stands at offset `5 * d + j` of the font region. -/
theorem resetByte_font (c : Config) (d : Fin 16) (j : Fin 5) :
    resetByte c (c.fontBase.toNat + 5 * d.val + j.val) = c.fontData[d][j] := by
  have hoff : c.fontBase.toNat + 5 * d.val + j.val - c.fontBase.toNat = 5 * d.val + j.val := by omega
  have hregion : c.fontBase.toNat ≤ c.fontBase.toNat + 5 * d.val + j.val ∧ 5 * d.val + j.val < 80 := by omega
  have hglyph : (5 * d.val + j.val) / 5 = d.val := by omega
  have hrow : (5 * d.val + j.val) % 5 = j.val := by omega
  simp only [resetByte, hoff, if_pos hregion, hglyph, hrow, Vector.getElem?_eq_getElem d.isLt,
    Vector.getElem?_eq_getElem j.isLt, Option.getD_some, Fin.getElem_fin]

theorem resetByte_outside (c : Config) {a : Nat} (ha : a < c.fontBase.toNat ∨ c.fontBase.toNat + 80 ≤ a) :
    resetByte c a = 0 :=
  if_neg (by omega)

/-! ### The state after `Reset` (R250) -/

theorem State.resetEvent_reg (s : State) (r : Reg) : s.resetEvent.reg r = 0 := Vector.getElem_replicate r.isLt

theorem State.resetEvent_stack (s : State) (j : Fin 16) : s.resetEvent.stack[j] = 0 := Vector.getElem_replicate j.isLt

theorem State.resetEvent_key (s : State) (k : Reg) : s.resetEvent.key[k] = false := Vector.getElem_replicate k.isLt

theorem State.resetEvent_pixel (s : State) (px py : Nat) : s.resetEvent.pixel px py = false := fbGet_blank px py

/-- No address is listed after a reset, so each reads as its reset contents. -/
theorem State.resetEvent_byteAt (s : State) (a : Nat) : s.resetEvent.byteAt a = resetByte s.cfg a := rfl

/-- Settles O52: element by element, with the font region and the zeros around it read from the reset contents. -/
theorem resetGivesTheResetValues : Obligations.ResetGivesTheResetValues := by
  intro s
  refine ⟨s.resetEvent, applyEvent_reset s, s.resetEvent_reg, rfl, rfl, rfl, s.resetEvent_stack, rfl, rfl, ?pixels,
    s.resetEvent_key, ?font, ?outside, rfl⟩
  case pixels => exact fun px py _ _ => s.resetEvent_pixel px py
  case font =>
    intro d j
    rw [State.resetEvent_byteAt, resetByte_font]
  case outside =>
    intro a ha
    rw [State.resetEvent_byteAt, resetByte_outside s.cfg ha]

end Sys2Proof.Machine
end

section
/-! PROOFS. Encoding and decoding (30_encoding.md R74 to R76, R83), words against instructions. -/

namespace Sys2Proof

/-- Settles O2: the two bytes give the word back, and the decoder the instruction of the word. -/
theorem decodeOfEncodeIsTheInstruction : Obligations.DecodeOfEncodeIsTheInstruction := by
  intro strict i rest hi
  simp only [encodeBytes, List.cons_append, List.nil_append, decodeBytes, wordOfBytes_high_low, decodeWord_encode strict hi]

/-- R76: group 5 is 5XY0, N looked at or not as `STRICT_5_9` says. -/
theorem decodeWord_group5 (strict : Bool) {w : Word} (hG : fieldG w = 5) :
    decodeWord strict w = if strict = true ∧ fieldN w ≠ 0 then none else some (.seReg (fieldX w) (fieldY w)) := by
  simp [decodeWord, hG]

/-- R76: group 9 is 9XY0, N looked at or not as `STRICT_5_9` says. -/
theorem decodeWord_group9 (strict : Bool) {w : Word} (hG : fieldG w = 9) :
    decodeWord strict w = if strict = true ∧ fieldN w ≠ 0 then none else some (.sneReg (fieldX w) (fieldY w)) := by
  simp [decodeWord, hG]

theorem decodeWord_encodeXYN_5 (strict : Bool) (x y : Reg) (n : Nat) (hn : n < 16) :
    decodeWord strict (encodeXYN 5 x y n) = if strict = true ∧ n ≠ 0 then none else some (.seReg x y) := by
  rw [decodeWord_group5 strict (fieldG_encodeXYN 5 (by omega) x y n hn), fieldN_encodeXYN 5 (by omega) x y n hn,
    fieldX_encodeXYN 5 (by omega) x y n hn, fieldY_encodeXYN 5 (by omega) x y n hn]

theorem decodeWord_encodeXYN_9 (strict : Bool) (x y : Reg) (n : Nat) (hn : n < 16) :
    decodeWord strict (encodeXYN 9 x y n) = if strict = true ∧ n ≠ 0 then none else some (.sneReg x y) := by
  rw [decodeWord_group9 strict (fieldG_encodeXYN 9 (by omega) x y n hn), fieldN_encodeXYN 9 (by omega) x y n hn,
    fieldX_encodeXYN 9 (by omega) x y n hn, fieldY_encodeXYN 9 (by omega) x y n hn]

/-- A word of group 5 or 9 that does not look at N decodes to the operation whose word has N cleared. -/
theorem encode_of_decodeWord_relaxed {w : Word} {i : Instr} (hG : fieldG w = 5 ∨ fieldG w = 9)
    (h : decodeWord false w = some i) :
    i.WellFormed ∧ encode i = w &&& 0xFFF0 ∧
      ((fieldG w = 5 ∧ ∃ x y, i = .seReg x y) ∨ (fieldG w = 9 ∧ ∃ x y, i = .sneReg x y)) := by
  have hzero := encodeXYN_zero w
  rcases hG with hG | hG <;> rw [hG] at hzero
  · rw [decodeWord_group5 false hG, if_neg (by simp)] at h
    cases h
    exact ⟨rfl, hzero, .inl ⟨hG, _, _, rfl⟩⟩
  · rw [decodeWord_group9 false hG, if_neg (by simp)] at h
    cases h
    exact ⟨rfl, hzero, .inr ⟨hG, _, _, rfl⟩⟩

/-- Settles O3: outside groups 5 and 9 `STRICT_5_9` plays no part, and inside them only N is lost. -/
theorem encodeOfDecodeIsTheWord : Obligations.EncodeOfDecodeIsTheWord := by
  intro strict w i h
  have hstrict (h : decodeWord true w = some i) := encode_of_decodeWord_strict h
  cases strict with
  | true => exact ⟨(hstrict h).1, .inl (hstrict h).2⟩
  | false =>
    by_cases hG : fieldG w = 5 ∨ fieldG w = 9
    · obtain ⟨hwf, hword, hgroup⟩ := encode_of_decodeWord_relaxed hG h
      exact ⟨hwf, .inr ⟨rfl, hword, hgroup⟩⟩
    · obtain ⟨h5, h9⟩ := not_or.mp hG
      rw [decodeWord_strict_irrelevant false true h5 h9] at h
      exact ⟨(hstrict h).1, .inl (hstrict h).2⟩

/-- R75: group 0 is the words up to 0x0FFF, of which two are instructions. -/
theorem decodeWord_group0 (strict : Bool) {w : Word} (hw : w.toNat ≤ 0x0FFF) :
    decodeWord strict w = if w = 0x00E0 then some .cls else if w = 0x00EE then some .ret else none := by
  have hG : fieldG w = 0 := by
    rw [fieldG_toNat]
    omega
  simp only [decodeWord, hG]

/-- Settles O1: ten closed evaluations of the decoder. -/
theorem sampleWordsDecode : Obligations.SampleWordsDecode := by
  unfold Obligations.SampleWordsDecode
  decide

end Sys2Proof
end

section
/-! PROOFS. The step (40_step.md R100 to R108, 60_exceptions.md R221 to R226): what `Step(r)` can do, for every random byte,
and what follows for every step. -/

namespace Sys2Proof.Machine

/-! ### The random byte (R100, 42_alu.md R151) -/

/-- A step depends on its execute phase only at the decoded instruction. -/
theorem stepBy_congr {ex ex' : Instr → State → Outcome} {s : State}
    (h : ∀ i, s.instrAtPc = some i → ex i s.advance = ex' i s.advance) : stepBy ex s = stepBy ex' s := by
  cases hs : s.status with
  | faulted rec => rw [stepBy_faulted ex s rec hs, stepBy_faulted ex' s rec hs]
  | running =>
    rw [stepBy_running ex s hs, stepBy_running ex' s hs]
    by_cases hf : s.fetchable
    · rw [cycle_of_fetchable ex s hf, cycle_of_fetchable ex' s hf]
      cases hi : s.instrAtPc with
      | none => rfl
      | some i => exact congrArg _ (h i hi)
    · rw [cycle_of_not_fetchable ex s hf, cycle_of_not_fetchable ex' s hf]

theorem step_eq_stepWith (s : State) : step s = stepWith (Config.randomByte s.draws) s :=
  stepBy_congr fun i _ => (execWith_free i s.advance).symm

/-- Settles O18: `exec` is `execWith` at the free byte, and `execWith` reads its byte in CXNN alone. -/
theorem onlyRandomOperationReadsTheRandomByte : Obligations.OnlyRandomOperationReadsTheRandomByte := by
  refine ⟨step_eq_stepWith, fun r r' s hrnd => stepBy_congr fun i hi => ?_⟩
  have hne : ∀ x nn, i ≠ .rnd x nn := fun x nn e => hrnd x nn (e ▸ hi)
  rw [execWith_other r i _ hne, execWith_other r' i _ hne]

/-! ### Every step ends (R104) -/

/-- Every operation answers a next state: a completed one or its fault. -/
theorem exec_next (i : Instr) (s : State) : ∃ t, exec i s = .next t := by
  cases i with
  | ret | call nnn => simp only [exec, execRet, execCall]; split <;> exact ⟨_, rfl⟩
  | drw x y n => simp only [exec, execDrw]; split <;> exact ⟨_, rfl⟩
  | skp x | sknp x | ldXK x => simp only [exec, execSkp, execSknp, execLdXK]; split <;> exact ⟨_, rfl⟩
  | bcd x | store x | load x => simp only [exec, execBcd, execStore, execLoad]; split <;> exact ⟨_, rfl⟩
  | _ => exact ⟨_, rfl⟩

/-- CXNN at the byte `r` is an arm of its own, every other operation is `exec`. -/
theorem execWith_cases (r : Byte) (i : Instr) (s : State) :
    (∃ x nn, i = .rnd x nn ∧ execWith r i s = .next (s.setReg x (r &&& nn)).drawn) ∨ execWith r i s = exec i s := by
  cases i with
  | rnd x nn => exact .inl ⟨x, nn, rfl, rfl⟩
  | _ => exact .inr rfl

theorem execWith_next (r : Byte) (i : Instr) (s : State) : ∃ t, execWith r i s = .next t := by
  rcases execWith_cases r i s with ⟨x, nn, -, h⟩ | h
  · exact ⟨_, h⟩
  · rw [h]
    exact exec_next i s

theorem cycle_next (r : Byte) (s : State) : ∃ t, cycle (execWith r) s = .next t := by
  rcases cycle_cases (execWith r) s with ⟨-, h⟩ | ⟨-, -, h⟩ | ⟨i, -, -, h⟩
  · exact ⟨_, h⟩
  · exact ⟨_, h⟩
  · rw [h]
    exact execWith_next r i s.advance

theorem stepWith_next (r : Byte) (s : State) : ∃ t, stepWith r s = .next t := by
  cases hs : s.status with
  | faulted rec => exact ⟨s, stepBy_faulted _ s rec hs⟩
  | running =>
    obtain ⟨u, hu⟩ := cycle_next r s
    exact ⟨u.coupledTick, by rw [stepWith, stepBy_running _ s hs, hu]; rfl⟩

/-- Settles O11: the fetch's and the decoder's faults are next states, and every operation answers one. -/
theorem everyStepEnds : Obligations.EveryStepEnds := by
  refine ⟨fun s => ?_, stepWith_next⟩
  rw [step_eq_stepWith]
  exact stepWith_next _ s

/-! ### The decoded instruction and the word that decodes to none (R102, R110) -/

/-- Settles O9: a fetchable word decodes to `i`, so the cycle is `exec i` past the word. -/
theorem stepRunsTheDecodedInstruction : Obligations.StepRunsTheDecodedInstruction := by
  intro s i hs hf hi
  rw [step, stepBy_running exec s hs, cycle_of_fetchable exec s hf, hi]

/-- The parts the coupling's tick moves after a step (R111). -/
def State.tickParts (s : State) : List Part :=
  match s.cfg.timerCoupling with
  | .independent => []
  | .perStep => [.delay, .sound]

theorem State.tickParts_subset (s : State) : ∀ p ∈ s.tickParts, p ∈ [Part.delay, Part.sound] := by
  unfold State.tickParts
  split <;> simp

theorem State.tickParts_independent {s : State} (h : s.cfg.timerCoupling = .independent) : s.tickParts = [] := by
  rw [State.tickParts, h]

theorem State.tickParts_congr {s t : State} (h : t.cfg = s.cfg) : t.tickParts = s.tickParts := by
  rw [State.tickParts, State.tickParts, h]

theorem frame_coupledTick_tickParts (s : State) : Frame s.tickParts s s.coupledTick := by
  cases h : s.cfg.timerCoupling with
  | independent =>
    rw [State.coupledTick_independent s h]
    exact Frame.refl _ s
  | perStep =>
    rw [State.coupledTick_perStep s h, State.tickParts, h]
    exact frame_tick s

/-- What a change of some parts becomes when the coupling's tick follows it. -/
theorem Frame.coupledTick {may : List Part} {s u : State} (h : Frame may s u) :
    Frame (may ++ s.tickParts) s u.coupledTick := by
  have htick := frame_coupledTick_tickParts u
  rw [State.tickParts_congr h.cfg] at htick
  exact (h.mono fun p hp => List.mem_append_left _ hp).trans (htick.mono fun p hp => List.mem_append_right _ hp)

/-- The two frames the statements name, of a step that changed `part` and ticked as coupled. -/
theorem Frame.with_timers {part : Part} {s t : State} (h : Frame ([part] ++ s.tickParts) s t) :
    Frame [part, .delay, .sound] s t ∧ (s.cfg.timerCoupling = .independent → Frame [part] s t) := by
  constructor
  · exact h.mono (List.append_subset.mpr ⟨by simp, fun p hp => List.mem_cons_of_mem _ (s.tickParts_subset p hp)⟩)
  · intro hc
    rwa [State.tickParts_independent hc] at h

/-- A step whose cycle takes a fault at `pc`. -/
theorem step_of_cycle_takeFault {s : State} {kind : FaultKind} {word : Option Word} {info : Word}
    (hs : s.status = .running) (h : cycle exec s = .next (s.takeFault kind s.pc word info)) :
    ∃ t, step s = .next t ∧ t.status = .faulted ⟨kind, s.pc, word, info⟩ ∧
      Frame [.status, .delay, .sound] s t ∧ (s.cfg.timerCoupling = .independent → Frame [.status] s t) := by
  refine ⟨(s.takeFault kind s.pc word info).coupledTick, ?_, ?_, ?_⟩
  · rw [step, stepBy_running exec s hs, h]
    rfl
  · rw [State.coupledTick_status, State.takeFault_status]
  · exact (frame_takeFault_at_pc s kind word info).coupledTick.with_timers

/-- Settles O10: the cycle of a fetchable word that decodes to none takes the invalid-instruction fault. -/
theorem invalidWordFaults : Obligations.InvalidWordFaults := by
  intro s hs hf hi
  apply step_of_cycle_takeFault hs
  rw [cycle_of_fetchable exec s hf, hi]

/-- The same, for the statements that name the record alone. -/
theorem step_invalid {s : State} (hs : s.status = .running) (hf : s.fetchable) (hi : s.instrAtPc = none) :
    ∃ t, step s = .next t ∧ t.status = .faulted ⟨.invalidInstruction, s.pc, some s.wordAtPc, s.wordAtPc⟩ := by
  obtain ⟨t, hstep, hrec, -⟩ := invalidWordFaults s hs hf hi
  exact ⟨t, hstep, hrec⟩

/-- Settles O4: group 0 is the words up to 0x0FFF, and the ones it refuses fault. -/
theorem groupZeroDecodesTheWholeWord : Obligations.GroupZeroDecodesTheWholeWord := by
  refine ⟨fun strict w => decodeWord_group0 strict, fun s hs hf hw hcls hret => step_invalid hs hf ?_⟩
  rw [State.instrAtPc, decodeWord_group0 _ hw, if_neg hcls, if_neg hret]

/-- Settles O5: the strict decoder refuses N ≠ 0 in both groups, and a refused word faults. -/
theorem groupsFiveAndNineFollowTheParameter : Obligations.GroupsFiveAndNineFollowTheParameter := by
  refine ⟨rfl, fun strict x y n hn => ⟨decodeWord_encodeXYN_5 strict x y n hn, decodeWord_encodeXYN_9 strict x y n hn⟩, ?_⟩
  intro s g x y n hs hf hstrict hg hn hn0 hw
  refine step_invalid hs hf ?_
  rw [State.instrAtPc, hw, hstrict]
  rcases hg with rfl | rfl
  · rw [decodeWord_encodeXYN_5 true x y n hn, if_pos ⟨rfl, hn0⟩]
  · rw [decodeWord_encodeXYN_9 true x y n hn, if_pos ⟨rfl, hn0⟩]

/-! ### The fetch (R101) -/

theorem firstFetchAddressOut_eq {p : Word} (h : 0xFFF ≤ p.toNat) :
    max p.toNat 0x1000 = if p.toNat = 0xFFF then 0x1000 else p.toNat := by
  split <;> omega

/-- Settles O8: the two bytes make the word, or the cycle takes the bounds fault with the first address out of range. -/
theorem fetchReadsTwoBytesOrFaults : Obligations.FetchReadsTwoBytesOrFaults := by
  refine ⟨fun s hf => ⟨_, fetch_ok s hf, wordOfBytes_toNat _ _, s.advance_pc_toNat hf⟩, fun s hs hpc => ?_⟩
  apply step_of_cycle_takeFault hs
  rw [cycle_of_not_fetchable exec s (by unfold State.fetchable; omega), firstFetchAddressOut_eq hpc]

end Sys2Proof.Machine
end

section
/-! PROOFS. Faults and frames of a step (40_step.md R108, R111, R112; 60_exceptions.md R221, R226; 10_state.md section 3). -/

namespace Sys2Proof.Machine

/-! ### The own fault of an operation (60_exceptions.md R221) -/

/-- Settles O15: what the execute phase can answer, for every instruction. -/
theorem operationsWriteOnlyTheirParts : Obligations.OperationsWriteOnlyTheirParts :=
  fun _ _ _ => exec_completesOrFaults

/-- A random byte written to V[X]: the register and the counter of bytes drawn. -/
theorem frame_setReg_drawn (s : State) (x : Reg) (b : Byte) : Frame [.reg x, .draws] s (s.setReg x b).drawn :=
  ((frame_setReg s x b).mono (by simp)).trans ((frame_drawn _).mono (by simp))

/-- CXNN at any random byte writes what it writes at the free one. -/
theorem execWith_completesOrFaults {r : Byte} {i : Instr} {s t : State} (h : execWith r i s = .next t) :
    CompletesOrFaults i s t := by
  rcases execWith_cases r i s with ⟨x, nn, rfl, he⟩ | he <;> rw [he] at h
  · exact completes_of_frame (frame_setReg_drawn s x _) h
  · exact exec_completesOrFaults h

/-- An operation whose own condition holds raises its fault. -/
theorem exec_of_ownFault {i : Instr} {s : State} {kind : FaultKind} {info : Nat} (h : OwnFault s kind info i) :
    exec i s = raise kind i (BitVec.ofNat 16 info) s := by
  cases i with
  | ret =>
    obtain ⟨rfl, hsp, rfl⟩ := h
    simp only [exec, execRet, State.pop_empty s hsp, hsp]
  | call nnn =>
    obtain ⟨rfl, hsp, rfl⟩ := h
    simp only [exec, execCall, State.push_full s _ hsp, hsp]
  | drw x y n =>
    obtain ⟨rfl, hn, hout, rfl⟩ := h
    simp only [exec, execDrw, firstOutOfRange_some s.i n hn hout]
  | bcd x =>
    obtain ⟨rfl, hout, rfl⟩ := h
    simp only [exec, execBcd, firstOutOfRange_some s.i 3 (by omega) hout]
  | store x =>
    obtain ⟨rfl, hout, rfl⟩ := h
    simp only [exec, execStore, firstOutOfRange_some s.i (x.val + 1) (by omega) hout]
  | load x =>
    obtain ⟨rfl, hout, rfl⟩ := h
    simp only [exec, execLoad, firstOutOfRange_some s.i (x.val + 1) (by omega) hout]
  | skp x =>
    obtain ⟨rfl, hkey, rfl⟩ := h
    simp only [exec, execSkp, keyNumber_none _ hkey, BitVec.ofNat_toNat]
  | sknp x =>
    obtain ⟨rfl, hkey, rfl⟩ := h
    simp only [exec, execSknp, keyNumber_none _ hkey, BitVec.ofNat_toNat]
  | _ => exact h.elim

/-- The `info` of every own fault fits the record. -/
theorem OwnFault.info_lt {i : Instr} {s : State} {kind : FaultKind} {info : Nat} (h : OwnFault s kind info i) :
    info < 2 ^ 16 := by
  have hi := s.i.isLt
  cases i with
  | ret | call nnn =>
    obtain ⟨-, -, rfl⟩ := h
    omega
  | drw x y n =>
    obtain ⟨-, -, -, rfl⟩ := h
    omega
  | bcd x | store x | load x =>
    obtain ⟨-, -, rfl⟩ := h
    omega
  | skp x | sknp x =>
    obtain ⟨-, -, rfl⟩ := h
    have := (s.reg x).isLt
    omega
  | _ => exact h.elim

/-- The execute phase enters the fault when the operation's own condition holds. -/
theorem exec_faultEntry {i : Instr} {s : State} {kind : FaultKind} {info : Nat} (h : OwnFault s kind info i) :
    ∃ t, exec i s = .next t ∧ FaultEntry kind (encode i) info s t := by
  rw [exec_of_ownFault h]
  have hentry := raise_next kind i (BitVec.ofNat 16 info) s
  rwa [BitVec.toNat_ofNat, Nat.mod_eq_of_lt h.info_lt] at hentry

/-- An operation whose own fault condition does not hold completes within its parts. -/
theorem exec_frame {i : Instr} {s t : State} (h : exec i s = .next t) (hno : ∀ kind info, ¬ OwnFault s kind info i) :
    Frame (partsWritten s i) s t := by
  rcases exec_completesOrFaults h with hf | ⟨kind, info, hown, -⟩
  · exact hf
  · exact absurd hown (hno kind info)

/-- An operation with a fault of its own has one word, whatever `STRICT_5_9` is (notes/assumptions/7.md). -/
theorem OwnFault.encode_eq_wordAtPc {i : Instr} {s u : State} {kind : FaultKind} {info : Nat}
    (h : OwnFault u kind info i) (hi : s.instrAtPc = some i) : encode i = s.wordAtPc := by
  obtain ⟨-, hword | ⟨-, -, ⟨-, x, y, rfl⟩ | ⟨-, x, y, rfl⟩⟩⟩ := encodeOfDecodeIsTheWord _ _ _ hi
  · exact hword
  · exact h.elim
  · exact h.elim

/-! ### The fetch-decode-execute cycle, inverted -/

/-- The cycle from `s` took a fault of the table and ended in `u`. -/
def CycleFaults (s u : State) : Prop :=
  ∃ kind word info, FaultCause s kind word info ∧ u.status = .faulted ⟨kind, s.pc, word, info⟩ ∧ Frame [.status] s u

/-- The cycle from `s` ran the operation at `pc` to its end, in `u`. -/
def CycleCompletes (s u : State) : Prop :=
  ∃ i, s.instrAtPc = some i ∧ u.status = .running ∧ Frame (.pc :: partsWritten s i) s u

theorem frame_advance (s : State) : Frame [.pc] s s.advance := frame_setPc s _

/-- `pc` back at its old value is no change. -/
theorem Frame.drop_pc {may : List Part} {s t : State} (h : Frame (.pc :: may) s t) (hpc : t.pc = s.pc) : Frame may s t where
  regs r hr := h.regs r (by simpa using hr)
  index hr := h.index (by simpa using hr)
  pc _ := hpc
  stack hr := h.stack (by simpa using hr)
  delay hr := h.delay (by simpa using hr)
  sound hr := h.sound (by simpa using hr)
  display hr := h.display (by simpa using hr)
  keys hr := h.keys (by simpa using hr)
  memory a ha := h.memory a (by simpa using ha)
  status hr := h.status (by simpa using hr)
  draws hr := h.draws (by simpa using hr)
  cfg := h.cfg

/-- A fault of the operation, seen from the state before the fetch. -/
theorem FaultEntry.frame_before {kind : FaultKind} {word : Word} {info : Nat} {s u : State}
    (h : FaultEntry kind word info s.advance u) : Frame [.status] s u := by
  refine Frame.drop_pc (((frame_advance s).mono (by simp)).trans h.rest) ?_
  rw [h.pc, State.advance_pc_sub]

theorem status_not_mem_partsWritten (s : State) (i : Instr) : Part.status ∉ partsWritten s i := by
  cases i with
  | load x => simp [partsWritten, regParts]
  | _ => simp [partsWritten]

/-- `info` of a fetch fault as the table writes it. -/
theorem faultCause_of_not_fetchable {s : State} (h : ¬ s.fetchable) :
    FaultCause s .memoryBounds none (BitVec.ofNat 16 (max s.pc.toNat 0x1000)) := by
  have hlt := s.pc.isLt
  refine .inl ⟨by unfold State.fetchable at h; omega, rfl, rfl, ?_⟩
  rw [BitVec.toNat_ofNat]
  omega

/-- What a cycle can do: it takes a fault of the table, or it completes. -/
theorem cycle_inversion {r : Byte} {s u : State} (hs : s.status = .running) (h : cycle (execWith r) s = .next u) :
    CycleFaults s u ∨ CycleCompletes s u := by
  rcases cycle_cases (execWith r) s with ⟨hf, hc⟩ | ⟨hf, hi, hc⟩ | ⟨i, hf, hi, hc⟩ <;> rw [hc] at h
  · cases h
    exact .inl ⟨_, _, _, faultCause_of_not_fetchable hf, rfl, frame_takeFault_at_pc s _ _ _⟩
  · cases h
    exact .inl ⟨_, _, _, .inr ⟨hf, rfl, .inl ⟨hi, rfl, rfl⟩⟩, rfl, frame_takeFault_at_pc s _ _ _⟩
  · rcases execWith_completesOrFaults h with hframe | ⟨kind, info, hown, hentry⟩
    · have hstatus : u.status = .running := (hframe.status (status_not_mem_partsWritten _ i)).trans hs
      exact .inr ⟨i, hi, hstatus, ((frame_advance s).mono (by simp)).trans (hframe.mono fun _ => List.mem_cons_of_mem _)⟩
    · refine .inl ⟨kind, some s.wordAtPc, BitVec.ofNat 16 info, .inr ⟨hf, rfl, .inr ⟨i, hi, ?_⟩⟩, ?_, hentry.frame_before⟩
      · rwa [BitVec.toNat_ofNat, Nat.mod_eq_of_lt hown.info_lt]
      · rw [hentry.status, State.advance_pc_sub, hown.encode_eq_wordAtPc hi]

/-- A step taken while running is a cycle and the coupling's tick. -/
theorem stepWith_running {r : Byte} {s t : State} (hs : s.status = .running) (h : stepWith r s = .next t) :
    ∃ u, cycle (execWith r) s = .next u ∧ t = u.coupledTick := by
  rw [stepWith, stepBy_running _ s hs] at h
  exact mapNext_eq_next h

/-! ### The fault table (60_exceptions.md R221, R226) -/

/-- A step that ends faulted took a fault of the table at `pc`. -/
theorem step_faulted {s t : State} {rec : FaultRecord} (hs : s.status = .running) (h : step s = .next t)
    (ht : t.status = .faulted rec) :
    rec.addr = s.pc ∧ FaultCause s rec.kind rec.word rec.info ∧ Frame ([.status] ++ s.tickParts) s t := by
  rw [step_eq_stepWith] at h
  obtain ⟨u, hu, rfl⟩ := stepWith_running hs h
  rw [State.coupledTick_status] at ht
  rcases cycle_inversion hs hu with ⟨kind, word, info, hcause, hstatus, hframe⟩ | ⟨i, -, hstatus, -⟩ <;>
    rw [hstatus] at ht <;> cases ht
  exact ⟨rfl, hcause, hframe.coupledTick⟩

/-- The word of a record: none exactly for a fetch fault. -/
theorem FaultCause.word_eq {s : State} {kind : FaultKind} {word : Option Word} {info : Word}
    (h : FaultCause s kind word info) : word = if s.pc.toNat ≤ 0xFFE then some s.wordAtPc else none := by
  rcases h with ⟨hpc, -, hword, -⟩ | ⟨hf, hword, -⟩
  · rw [hword, if_neg (by omega)]
  · rw [hword, if_pos hf]

/-- Settles O12: a step that ends faulted took a fault of the table, and so changed the status alone before the tick. -/
theorem faultsArePrecise : Obligations.FaultsArePrecise := by
  intro s t rec hs hstep ht
  obtain ⟨haddr, hcause, hframe⟩ := step_faulted hs hstep ht
  have htimers := hframe.with_timers
  exact ⟨haddr, htimers.1.pc (by simp), hcause.word_eq, htimers⟩

/-- A condition of the table makes the cycle take its fault. -/
theorem cycle_of_faultCause {s : State} {kind : FaultKind} {word : Option Word} {info : Word}
    (h : FaultCause s kind word info) : cycle exec s = .next (s.takeFault kind s.pc word info) := by
  rcases h with ⟨hpc, rfl, rfl, hinfo⟩ | ⟨hf, rfl, ⟨hi, rfl, rfl⟩ | ⟨i, hi, hown⟩⟩
  · rw [cycle_of_not_fetchable exec s (by unfold State.fetchable; omega), ← hinfo, BitVec.ofNat_toNat, BitVec.setWidth_eq]
  · rw [cycle_of_fetchable exec s hf, hi]
  · have hadv : OwnFault s.advance kind info.toNat i := hown
    rw [cycle_of_fetchable exec s hf, hi]
    dsimp only
    rw [exec_of_ownFault hadv, raise, State.advance_pc_sub, hown.encode_eq_wordAtPc hi, BitVec.ofNat_toNat,
      BitVec.setWidth_eq]
    rfl

/-- Settles O13: the inversion of a faulted step one way, the cycle at each condition of the table the other. -/
theorem faultsAreThoseOfTheTable : Obligations.FaultsAreThoseOfTheTable := by
  refine ⟨fun s kind addr word info hs => ⟨?_, ?_⟩, rfl⟩
  · rintro ⟨t, hstep, ht⟩
    obtain ⟨haddr, hcause, -⟩ := step_faulted hs hstep ht
    exact ⟨haddr, hcause⟩
  · rintro ⟨rfl, hcause⟩
    obtain ⟨t, hstep, ht, -⟩ := step_of_cycle_takeFault hs (cycle_of_faultCause hcause)
    exact ⟨t, hstep, ht⟩

/-! ### What a step may change (10_state.md section 3, 20_memory.md R57) -/

/-- The parts the operation at `pc` writes when it completes. -/
def State.stepParts (s : State) : List Part := s.instrAtPc.elim [] (partsWritten s)

theorem State.mem_stepParts {s : State} {p : Part} :
    p ∈ s.stepParts ↔ ∃ i, s.instrAtPc = some i ∧ p ∈ partsWritten s i := by
  rw [State.stepParts]
  cases s.instrAtPc <;> simp

/-- Beside `pc` and the status a cycle changes what the operation at `pc` writes. -/
theorem cycle_frame {r : Byte} {s u : State} (hs : s.status = .running) (h : cycle (execWith r) s = .next u) :
    Frame ([.pc, .status] ++ s.stepParts) s u := by
  rcases cycle_inversion hs h with ⟨kind, word, info, -, -, hframe⟩ | ⟨i, hi, -, hframe⟩
  · exact hframe.mono (by simp)
  · refine hframe.mono fun p hp => ?_
    rcases List.mem_cons.mp hp with rfl | hp
    · simp
    · exact List.mem_append_right _ (State.mem_stepParts.mpr ⟨i, hi, hp⟩)

theorem stepWith_frame {r : Byte} {s t : State} (h : stepWith r s = .next t) :
    Frame ([.pc, .status] ++ s.stepParts ++ s.tickParts) s t := by
  cases hs : s.status with
  | faulted rec =>
    cases (stepBy_faulted (execWith r) s rec hs).symm.trans h
    exact Frame.refl _ s
  | running =>
    obtain ⟨u, hu, rfl⟩ := stepWith_running hs h
    exact (cycle_frame hs hu).coupledTick

/-- A part that is neither `pc` nor the status, nor moved by the coupling, belongs to the operation at `pc`. -/
theorem State.owner_of_mem {s : State} {p : Part} (h : p ∈ [.pc, .status] ++ s.stepParts ++ s.tickParts)
    (hp : p ∉ [Part.pc, .status]) (htick : p ∉ s.tickParts) : ∃ i, s.instrAtPc = some i ∧ p ∈ partsWritten s i := by
  rcases List.mem_append.mp h with h | h
  · exact State.mem_stepParts.mp ((List.mem_append.mp h).resolve_left hp)
  · exact absurd h htick

theorem index_owner {s : State} {i : Instr} (h : Part.index ∈ partsWritten s i) :
    (∃ n, i = .ldI n) ∨ (∃ x, i = .addIX x) ∨ ∃ x, i = .ldFX x := by
  cases i with
  | ldI n => exact .inl ⟨n, rfl⟩
  | addIX x => exact .inr (.inl ⟨x, rfl⟩)
  | ldFX x => exact .inr (.inr ⟨x, rfl⟩)
  | load x => simp [partsWritten, regParts] at h
  | _ => simp [partsWritten] at h

theorem stack_owner {s : State} {i : Instr} (h : Part.stack ∈ partsWritten s i) : i = .ret ∨ ∃ n, i = .call n := by
  cases i with
  | ret => exact .inl rfl
  | call n => exact .inr ⟨n, rfl⟩
  | load x => simp [partsWritten, regParts] at h
  | _ => simp [partsWritten] at h

theorem display_owner {s : State} {i : Instr} (h : Part.display ∈ partsWritten s i) :
    i = .cls ∨ ∃ x y n, i = .drw x y n := by
  cases i with
  | cls => exact .inl rfl
  | drw x y n => exact .inr ⟨x, y, n, rfl⟩
  | load x => simp [partsWritten, regParts] at h
  | _ => simp [partsWritten] at h

theorem memory_owner {s : State} {i : Instr} {base len : Nat} (h : Part.memory base len ∈ partsWritten s i) :
    (∃ x, i = .bcd x) ∨ ∃ x, i = .store x := by
  cases i with
  | bcd x => exact .inl ⟨x, rfl⟩
  | store x => exact .inr ⟨x, rfl⟩
  | load x => simp [partsWritten, regParts] at h
  | _ => simp [partsWritten] at h

theorem delay_owner {s : State} {i : Instr} (h : Part.delay ∈ partsWritten s i) : ∃ x, i = .ldDtX x := by
  cases i with
  | ldDtX x => exact ⟨x, rfl⟩
  | load x => simp [partsWritten, regParts] at h
  | _ => simp [partsWritten] at h

theorem sound_owner {s : State} {i : Instr} (h : Part.sound ∈ partsWritten s i) : ∃ x, i = .ldStX x := by
  cases i with
  | ldStX x => exact ⟨x, rfl⟩
  | load x => simp [partsWritten, regParts] at h
  | _ => simp [partsWritten] at h

theorem keys_not_mem_partsWritten (s : State) (i : Instr) : Part.keys ∉ partsWritten s i := by
  cases i with
  | load x => simp [partsWritten, regParts]
  | _ => simp [partsWritten]

/-- With independent coupling the timers change in a step by FX15 and FX18 alone. -/
theorem stepWith_timers_independent {r : Byte} {s t : State} (hc : s.cfg.timerCoupling = .independent)
    (h : stepWith r s = .next t) :
    (t.dt ≠ s.dt → ∃ x, s.instrAtPc = some (.ldDtX x)) ∧ (t.st ≠ s.st → ∃ x, s.instrAtPc = some (.ldStX x)) := by
  have hframe := stepWith_frame h
  have htick (p : Part) : p ∉ s.tickParts := by simp [State.tickParts_independent hc]
  constructor
  · intro hne
    obtain ⟨i, hi, hp⟩ := State.owner_of_mem (not_imp_comm.mp hframe.delay hne) (by simp) (htick _)
    obtain ⟨x, rfl⟩ := delay_owner hp
    exact ⟨x, hi⟩
  · intro hne
    obtain ⟨i, hi, hp⟩ := State.owner_of_mem (not_imp_comm.mp hframe.sound hne) (by simp) (htick _)
    obtain ⟨x, rfl⟩ := sound_owner hp
    exact ⟨x, hi⟩

/-- Settles O17: a part that changed stands in the step's frame, so the operation at `pc` writes it, and each part has few
writers. -/
theorem stateChangesOnlyThroughItsOwners : Obligations.StateChangesOnlyThroughItsOwners := by
  intro s t _ hstep
  rw [step_eq_stepWith] at hstep
  have hframe := stepWith_frame hstep
  have htick {p : Part} (hp : p ∉ [Part.delay, .sound]) : p ∉ s.tickParts := fun h => hp (s.tickParts_subset p h)
  refine ⟨?keys, hframe.cfg, ?index, ?stack, ?display, ?memory, fun hc => stepWith_timers_independent hc hstep⟩
  case keys =>
    refine hframe.keys fun h => ?_
    obtain ⟨i, -, hp⟩ := State.owner_of_mem h (by simp) (htick (by simp))
    exact keys_not_mem_partsWritten s i hp
  case index =>
    intro hne
    obtain ⟨i, hi, hp⟩ := State.owner_of_mem (not_imp_comm.mp hframe.index hne) (by simp) (htick (by simp))
    exact ⟨i, hi, index_owner hp⟩
  case stack =>
    intro hne
    have hmem := not_imp_comm.mp hframe.stack (not_and_or.mpr hne)
    obtain ⟨i, hi, hp⟩ := State.owner_of_mem hmem (by simp) (htick (by simp))
    exact ⟨i, hi, stack_owner hp⟩
  case display =>
    intro hne
    obtain ⟨i, hi, hp⟩ := State.owner_of_mem (not_imp_comm.mp hframe.display hne) (by simp) (htick (by simp))
    exact ⟨i, hi, display_owner hp⟩
  case memory =>
    rintro ⟨a, hne⟩
    obtain ⟨base, len, hmem⟩ : ∃ base len, Part.memory base len ∈ [.pc, .status] ++ s.stepParts ++ s.tickParts := by
      by_contra hnone
      exact hne (hframe.memory a fun base len h => absurd ⟨base, len, h⟩ hnone)
    obtain ⟨i, hi, hp⟩ := State.owner_of_mem hmem (by simp) (htick (by simp))
    exact ⟨i, hi, memory_owner hp⟩

/-! ### The end of a run (40_step.md R112) -/

/-- A jump back to the word itself undoes the fetch's advance. -/
theorem State.advance_setPc_self (s : State) : s.advance.setPc s.pc = s := rfl

/-- Settles O20: a faulted core ignores steps, and a jump to itself gives the state back before the tick. -/
theorem endOfRunIsFixed : Obligations.EndOfRunIsFixed := by
  intro s hend
  cases hs : s.status with
  | faulted rec => exact ⟨s, stepBy_faulted exec s rec hs, Frame.refl _ s, fun _ => rfl⟩
  | running =>
    obtain ⟨hf, nnn, hi, htarget⟩ := hend.resolve_left (not_not.mpr hs)
    refine ⟨s.coupledTick, ?_, frame_coupledTick s, s.coupledTick_independent⟩
    rw [stepRunsTheDecodedInstruction s _ hs hf hi, exec, execJp, htarget, State.advance_setPc_self]
    rfl

end Sys2Proof.Machine
end

section
/-! PROOFS. Timer coupling (40_step.md R111, the spec's decision D14): no operation looks at it, so the two machines differ
by the tick after the step. -/

namespace Sys2Proof.Machine

/-! ### The operations commute with the coupling -/

@[simp] theorem State.withCoupling_i (s : State) (c : TimerCoupling) : (s.withCoupling c).i = s.i := rfl

@[simp] theorem State.withCoupling_pc (s : State) (c : TimerCoupling) : (s.withCoupling c).pc = s.pc := rfl

@[simp] theorem State.withCoupling_reg (s : State) (c : TimerCoupling) (x : Reg) : (s.withCoupling c).reg x = s.reg x := rfl

@[simp] theorem State.withCoupling_lowestKey (s : State) (c : TimerCoupling) : (s.withCoupling c).lowestKey = s.lowestKey := rfl

@[simp] theorem State.withCoupling_instrAtPc (s : State) (c : TimerCoupling) : (s.withCoupling c).instrAtPc = s.instrAtPc := rfl

theorem State.withCoupling_self (s : State) {c c' : TimerCoupling} (h : s.cfg.timerCoupling = c) :
    (s.withCoupling c').withCoupling c = s := by
  subst h
  rfl

theorem State.skipIf_withCoupling (s : State) (c : TimerCoupling) (b : Bool) :
    (s.withCoupling c).skipIf b = (s.skipIf b).withCoupling c := by
  rw [State.skipIf_eq_setPc, State.skipIf_eq_setPc]
  rfl

theorem State.push_withCoupling (s : State) (c : TimerCoupling) (w : Word) :
    (s.withCoupling c).push w = (s.push w).map (·.withCoupling c) := by
  by_cases h : s.sp.val < 16
  · rw [State.push_spec s w h, State.push_spec (s.withCoupling c) w h]
    rfl
  · have hfull : s.sp.val = 16 := by have := s.sp.isLt; omega
    rw [State.push_full s w hfull, State.push_full (s.withCoupling c) w hfull]
    rfl

theorem State.pop_withCoupling (s : State) (c : TimerCoupling) :
    (s.withCoupling c).pop = s.pop.map fun p => (p.1, p.2.withCoupling c) := by
  by_cases h : 0 < s.sp.val
  · rw [State.pop_spec s h, State.pop_spec (s.withCoupling c) h]
    rfl
  · have hempty : s.sp.val = 0 := by omega
    rw [State.pop_empty s hempty, State.pop_empty (s.withCoupling c) hempty]
    rfl

theorem State.writeBytes_withCoupling (s : State) (c : TimerCoupling) (a : Nat) (bs : List Byte) :
    (s.withCoupling c).writeBytes a bs = (s.writeBytes a bs).withCoupling c := by
  induction bs generalizing s a with
  | nil => rfl
  | cons b bs ih => exact ih (s.setByte a b) (a + 1)

theorem State.loadRegs_withCoupling (s : State) (c : TimerCoupling) (base : Nat) (rs : List Reg) :
    (s.withCoupling c).loadRegs base rs = (s.loadRegs base rs).withCoupling c := by
  induction rs generalizing s with
  | nil => rfl
  | cons r rs ih => exact ih (s.setReg r (s.byteAt (base + r.val)))

theorem drawRows_withCoupling (s : State) (c : TimerCoupling) (x0 y0 row count : Nat) (cv : Canvas) :
    drawRows (s.withCoupling c) x0 y0 row count cv = drawRows s x0 y0 row count cv := by
  induction count generalizing row cv with
  | zero => rfl
  | succ count ih => exact ih (row + 1) _

/-- No operation reads or writes the coupling. -/
theorem exec_withCoupling (i : Instr) (s : State) (c : TimerCoupling) :
    exec i (s.withCoupling c) = mapNext (·.withCoupling c) (exec i s) := by
  cases i with
  | ret =>
    simp only [exec, execRet, State.pop_withCoupling]
    cases s.pop <;> rfl
  | call nnn =>
    simp only [exec, execCall, State.withCoupling_pc, State.push_withCoupling]
    cases s.push s.pc <;> rfl
  | seImm x nn | sneImm x nn => exact congrArg _ (State.skipIf_withCoupling s c _)
  | seReg x y | sneReg x y => exact congrArg _ (State.skipIf_withCoupling s c _)
  | skp x | sknp x =>
    simp only [exec, execSkp, execSknp, State.withCoupling_reg]
    cases keyNumber (s.reg x) with
    | none => rfl
    | some k => exact congrArg _ (State.skipIf_withCoupling s c _)
  | ldXK x =>
    simp only [exec, execLdXK, State.withCoupling_lowestKey]
    cases s.lowestKey <;> rfl
  | drw x y n =>
    simp only [exec, execDrw, State.withCoupling_i, drawRows_withCoupling]
    cases firstOutOfRange s.i n <;> rfl
  | bcd x | store x =>
    simp only [exec, execBcd, execStore, State.withCoupling_i]
    generalize firstOutOfRange s.i _ = out
    cases out with
    | some e => rfl
    | none => exact congrArg _ (State.writeBytes_withCoupling s c _ _)
  | load x =>
    simp only [exec, execLoad, State.withCoupling_i]
    cases firstOutOfRange s.i (x.val + 1) with
    | some e => rfl
    | none => exact congrArg _ (State.loadRegs_withCoupling s c _ _)
  | _ => rfl

theorem execWith_withCoupling (r : Byte) (i : Instr) (s : State) (c : TimerCoupling) :
    execWith r i (s.withCoupling c) = mapNext (·.withCoupling c) (execWith r i s) := by
  by_cases hrnd : ∃ x nn, i = .rnd x nn
  · obtain ⟨x, nn, rfl⟩ := hrnd
    rfl
  · have hne : ∀ x nn, i ≠ .rnd x nn := fun x nn e => hrnd ⟨x, nn, e⟩
    rw [execWith_other r i _ hne, execWith_other r i _ hne, exec_withCoupling]

/-- The cycle is the same under both couplings. -/
theorem cycle_withCoupling (r : Byte) (s : State) (c : TimerCoupling) :
    cycle (execWith r) (s.withCoupling c) = mapNext (·.withCoupling c) (cycle (execWith r) s) := by
  by_cases hf : s.fetchable
  · rw [cycle_of_fetchable _ s hf, cycle_of_fetchable _ (s.withCoupling c) hf,
      State.withCoupling_instrAtPc]
    cases s.instrAtPc with
    | none => rfl
    | some i => exact execWith_withCoupling r i s.advance c
  · rw [cycle_of_not_fetchable _ s hf, cycle_of_not_fetchable _ (s.withCoupling c) hf]
    rfl

/-- A running machine without coupling steps by the cycle alone. -/
theorem stepWith_independent {r : Byte} {s u : State} (hs : s.status = .running)
    (hc : s.cfg.timerCoupling = .independent) (h : cycle (execWith r) s = .next u) : stepWith r s = .next u := by
  have hu : u.cfg.timerCoupling = .independent := by rw [(cycle_frame hs h).cfg, hc]
  rw [stepWith, stepBy_running _ s hs, h, mapNext, State.coupledTick_independent u hu]

/-- Settles O19: the per-step machine runs the independent machine's cycle and ticks once after it. -/
theorem perStepCouplingIsATickAfterTheStep : Obligations.PerStepCouplingIsATickAfterTheStep := by
  refine ⟨fun r s t hc h => stepWith_timers_independent hc h, fun r s hs hc => ?_⟩
  obtain ⟨u, hu⟩ := cycle_next r (s.withCoupling .independent)
  refine ⟨u, stepWith_independent hs rfl hu, ?_⟩
  have hcycle : cycle (execWith r) s = .next (u.withCoupling .perStep) := by
    have hback := cycle_withCoupling r (s.withCoupling .independent) .perStep
    rwa [State.withCoupling_self s hc, hu] at hback
  rw [stepWith, stepBy_running _ s hs, hcycle, mapNext, State.coupledTick_perStep (u.withCoupling .perStep) rfl]
  rfl

end Sys2Proof.Machine
end

section
/-! PROOFS. Waiting for a key (45_keys_timers.md R203, R213). -/

namespace Sys2Proof.Machine

/-- One event of a run. -/
theorem runEvents_cons {e : Event} {s t : State} {a : Answer} (h : applyEvent e s = .next (t, a)) (es : List Event) :
    runEvents (e :: es) s = runEvents es t := by
  rw [runEvents, h]

theorem applyEvent_step {r : Byte} {s t : State} (h : stepWith r s = .next t) :
    applyEvent (.step r) s = .next (t, .done) := by
  rw [applyEvent, h]

theorem execLdXK_waits {x : Reg} {s : State} (h : ∀ k, s.pressed k = false) :
    exec (.ldXK x) s = .next (s.setPc (s.pc - 2)) := by
  rw [exec, execLdXK, (State.lowestKey_eq_none s).mpr h]

/-- The timers play no part in the fetch, the decode and the key matrix. -/
theorem AwaitingKey.of_frame {s t : State} (h : AwaitingKey s) (hf : Frame [.delay, .sound] s t) : AwaitingKey t := by
  obtain ⟨hrun, hfetch, hinstr, hkeys⟩ := h
  have hpc : t.pc = s.pc := hf.pc (by simp)
  have hword : t.wordAtPc = s.wordAtPc := by
    rw [State.wordAtPc, State.wordAtPc, hpc, hf.memory _ (by simp), hf.memory _ (by simp)]
  refine ⟨(hf.status (by simp)).trans hrun, ?_, ?_, ?_⟩
  · rwa [State.fetchable, hpc]
  · rwa [State.instrAtPc, hword, hf.cfg]
  · intro k
    rw [State.pressed, hf.keys (by simp)]
    exact hkeys k

/-- FX0A with no key pressed fetches its word again. -/
theorem stepWith_of_awaitingKey {s : State} (h : AwaitingKey s) (r : Byte) : stepWith r s = .next s.coupledTick := by
  obtain ⟨hrun, hfetch, ⟨x, hx⟩, hkeys⟩ := h
  have hexec : execWith r (.ldXK x) s.advance = .next s := by
    rw [execWith_other r _ _ (by simp), execLdXK_waits (s := s.advance) hkeys, State.advance_pc_sub, State.advance_setPc_self]
  rw [stepWith, stepBy_running _ s hrun, cycle_of_fetchable _ s hfetch, hx]
  exact congrArg (mapNext State.coupledTick) hexec

/-- A release of a key that is up changes nothing. -/
theorem State.setKey_false_of_up {s : State} {k : Reg} (h : s.pressed k = false) : s.setKey k false = s := by
  have hkey : s.key.set k.val false k.isLt = s.key := by
    rw [← h]
    exact Vector.set_getElem_self k.isLt
  rw [State.setKey, hkey]

/-- An event that presses no key moves the timers of a waiting core and nothing else. -/
theorem applyEvent_of_awaitingKey {e : Event} {s : State} (h : AwaitingKey s) (he : e.leavesKeysUp) :
    ∃ t a, applyEvent e s = .next (t, a) ∧ Frame [.delay, .sound] s t := by
  cases e with
  | step r => exact ⟨_, _, applyEvent_step (stepWith_of_awaitingKey h r), frame_coupledTick s⟩
  | tick => exact ⟨_, _, rfl, frame_tick s⟩
  | readPixel x y => exact ⟨_, _, rfl, Frame.refl _ s⟩
  | setKey k b =>
    obtain rfl : b = false := he
    obtain ⟨-, -, -, hkeys⟩ := h
    refine ⟨_, _, rfl, ?_⟩
    rw [State.setKey_false_of_up (hkeys k)]
    exact Frame.refl _ s
  | reset => exact he.elim
  | load image => exact he.elim

/-- Settles O46: by induction on the events, each of which leaves the core waiting. -/
theorem keyWaitEndsOnlyByAKey : Obligations.KeyWaitEndsOnlyByAKey := by
  intro es s h hes
  induction es generalizing s with
  | nil => exact ⟨s, rfl, h, Frame.refl _ s⟩
  | cons e es ih =>
    obtain ⟨u, a, hu, hframe⟩ := applyEvent_of_awaitingKey h (hes e (List.mem_cons_self ..))
    obtain ⟨t, ht, hwait, hrest⟩ := ih u (h.of_frame hframe) fun e' he' => hes e' (List.mem_cons_of_mem _ he')
    exact ⟨t, (runEvents_cons hu es).trans ht, hwait, hframe.trans hrest⟩

end Sys2Proof.Machine
end

section
/-! PROOFS. The invariant of every run (10_state.md R27, R28, R34, R50; 70_reset_and_hazards.md R250, R254). -/

namespace Sys2Proof.Machine

/-! ### Updates that keep the invariant -/

/-- The invariant speaks of memory, the parameters, `pc`, the stack entries and the status alone. -/
theorem StateInv.congr {s t : State} (h : StateInv s) (hmem : t.mem = s.mem) (hcfg : t.cfg = s.cfg) (hpc : t.pc = s.pc)
    (hstack : t.stack = s.stack) (hstatus : t.status = s.status) : StateInv t where
  memory := by rw [hcfg, hmem]; exact h.memory
  pc := by rw [hpc]; exact h.pc
  stack j := by rw [hstack]; exact h.stack j
  record rec hrec := by rw [hpc]; exact h.record rec (hstatus ▸ hrec)

theorem StateInv.tick {s : State} (h : StateInv s) : StateInv s.tick := h.congr rfl rfl rfl rfl rfl

theorem StateInv.coupledTick {s : State} (h : StateInv s) : StateInv s.coupledTick := by
  unfold State.coupledTick
  split
  · exact h
  · exact h.tick

theorem StateInv.setKey {s : State} (h : StateInv s) (k : Reg) (b : Bool) : StateInv (s.setKey k b) :=
  h.congr rfl rfl rfl rfl rfl

theorem StateInv.takeFault {s : State} (h : StateInv s) {addr : Word} (haddr : addr.toNat ≤ 0x10FE) (kind : FaultKind)
    (word : Option Word) (info : Word) : StateInv (s.takeFault kind addr word info) where
  memory := h.memory
  pc := haddr
  stack := h.stack
  record rec hrec := by cases hrec; rfl

/-- Bytes written inside the memory keep its canonical form. -/
theorem StateInv.writeBytes {s : State} (h : StateInv s) {a : Nat} {bs : List Byte} (ha : a + bs.length ≤ memSize) :
    StateInv (s.writeBytes a bs) := by
  have hmem := s.wf_writeBytes a bs h.memory ha
  rw [s.writeBytes_eq] at hmem ⊢
  exact ⟨hmem, h.pc, h.stack, h.record⟩

/-! ### The execute phase -/

/-- A state the execute phase runs in: the invariant, running, `pc` past a word that lies in memory (40_step.md R103). -/
structure Fetched (s : State) : Prop where
  inv : StateInv s
  running : s.status = .running
  pc_ge : 2 ≤ s.pc.toNat
  pc_le : s.pc.toNat ≤ 0x1000

theorem StateInv.fetched {s : State} (h : StateInv s) (hs : s.status = .running) (hf : s.fetchable) :
    Fetched s.advance := by
  have hpc := s.advance_pc_toNat hf
  unfold State.fetchable at hf
  exact ⟨⟨h.memory, by omega, h.stack, fun rec hrec => by cases hs.symm.trans hrec⟩, hs, by omega, by omega⟩

/-- A new `pc` within the bound; there is no record while running. -/
theorem Fetched.setPc {s : State} (h : Fetched s) {w : Word} (hw : w.toNat ≤ 0x10FE) : StateInv (s.setPc w) where
  memory := h.inv.memory
  pc := hw
  stack := h.inv.stack
  record rec hrec := by cases h.running.symm.trans hrec

theorem Fetched.pc_add_two {s : State} (h : Fetched s) : (s.pc + 2).toNat ≤ 0x10FE := by
  have hle := h.pc_le
  rw [BitVec.toNat_add, show (2 : Word).toNat = 2 from rfl]
  omega

theorem Fetched.pc_sub_two {s : State} (h : Fetched s) : (s.pc - 2).toNat ≤ 0x10FE := by
  have hge := h.pc_ge
  have hle := h.pc_le
  rw [BitVec.toNat_sub, show (2 : Word).toNat = 2 from rfl]
  omega

theorem Fetched.skipIf {s : State} (h : Fetched s) (c : Bool) : StateInv (s.skipIf c) := by
  unfold State.skipIf
  split
  · exact h.setPc h.pc_add_two
  · exact h.inv

/-- Every return address is the `pc` of a call, so at most 0x1000 (41_control_flow.md R121). -/
theorem Fetched.pop {s u : State} {w : Word} (h : Fetched s) (hpop : s.pop = some (w, u)) :
    w.toNat ≤ 0x1000 ∧ Fetched u := by
  by_cases hsp : 0 < s.sp.val
  · have hlt : s.sp.val - 1 < 16 := by have := s.sp.isLt; omega
    rw [s.pop_spec hsp] at hpop
    cases hpop
    exact ⟨h.inv.stack ⟨s.sp.val - 1, hlt⟩, h.inv.congr rfl rfl rfl rfl rfl, h.running, h.pc_ge, h.pc_le⟩
  · rw [s.pop_empty (by omega)] at hpop
    cases hpop

theorem Fetched.push {s u : State} (h : Fetched s) (hpush : s.push s.pc = some u) : Fetched u := by
  by_cases hsp : s.sp.val < 16
  · rw [s.push_spec s.pc hsp] at hpush
    cases hpush
    refine ⟨⟨h.inv.memory, h.inv.pc, fun j => ?_, h.inv.record⟩, h.running, h.pc_ge, h.pc_le⟩
    rw [Fin.getElem_fin, Vector.getElem_set]
    split
    · exact h.pc_le
    · exact h.inv.stack j
  · rw [s.push_full s.pc (by have := s.sp.isLt; omega)] at hpush
    cases hpush

theorem Fetched.of_raise {s t : State} {kind : FaultKind} {i : Instr} {info : Word} (h : Fetched s)
    (ht : raise kind i info s = .next t) : StateInv t := by
  cases ht
  exact h.inv.takeFault h.pc_sub_two _ _ _

theorem StateInv.of_next {t u : State} (h : StateInv u) (ht : (.next u : Outcome) = .next t) : StateInv t := by
  cases ht
  exact h

/-- Every operation keeps the invariant, when it completes and when it faults. -/
theorem exec_keeps_stateInv {i : Instr} {s t : State} (hs : Fetched s) (h : exec i s = .next t) : StateInv t := by
  cases i with
  | cls | ldI nnn | ldXDt x | ldDtX x | ldStX x | addIX x | ldFX x | mov x y | or x y | and x y | xor x y | add x y
  | sub x y | shr x y | subn x y | shl x y | ldImm x nn | addImm x nn | rnd x nn =>
    obtain rfl := Host.Outcome.next.inj h
    exact hs.inv.congr rfl rfl rfl rfl rfl
  | jp nnn =>
    refine (hs.setPc ?_).of_next h
    have := nnn.isLt
    rw [zextAddr_toNat]
    omega
  | jpV0 nnn =>
    refine (hs.setPc ?_).of_next h
    have := nnn.isLt
    have := (s.reg 0).isLt
    rw [zextByte_add_zextAddr_toNat]
    omega
  | seImm x nn | sneImm x nn => exact (hs.skipIf _).of_next h
  | seReg x y | sneReg x y => exact (hs.skipIf _).of_next h
  | ret =>
    simp only [exec, execRet] at h
    split at h
    next => exact hs.of_raise h
    next w u hpop =>
      obtain ⟨hw, hu⟩ := hs.pop hpop
      exact (hu.setPc (by omega)).of_next h
  | call nnn =>
    simp only [exec, execCall] at h
    split at h
    next => exact hs.of_raise h
    next u hpush =>
      refine ((hs.push hpush).setPc ?_).of_next h
      have := nnn.isLt
      rw [zextAddr_toNat]
      omega
  | skp x | sknp x =>
    simp only [exec, execSkp, execSknp] at h
    split at h
    next => exact hs.of_raise h
    next => exact (hs.skipIf _).of_next h
  | ldXK x =>
    simp only [exec, execLdXK] at h
    split at h
    next => exact (hs.setPc hs.pc_sub_two).of_next h
    next => cases h; exact hs.inv.congr rfl rfl rfl rfl rfl
  | drw x y n =>
    simp only [exec, execDrw] at h
    split at h
    next => exact hs.of_raise h
    next => cases h; exact hs.inv.congr rfl rfl rfl rfl rfl
  | bcd x =>
    simp only [exec, execBcd] at h
    split at h
    next => exact hs.of_raise h
    next hin =>
      exact (hs.inv.writeBytes ((firstOutOfRange_eq_none _ _ hin).resolve_left (by omega))).of_next h
  | store x =>
    simp only [exec, execStore] at h
    split at h
    next => exact hs.of_raise h
    next hin =>
      have hbound := (firstOutOfRange_eq_none _ _ hin).resolve_left (by omega)
      refine (hs.inv.writeBytes ?_).of_next h
      rwa [List.length_map, regsUpTo_length]
  | load x =>
    simp only [exec, execLoad] at h
    split at h
    next => exact hs.of_raise h
    next =>
      rw [State.loadRegs_eq] at h
      cases h
      exact hs.inv.congr rfl rfl rfl rfl rfl

theorem execWith_keeps_stateInv {r : Byte} {i : Instr} {s t : State} (hs : Fetched s) (h : execWith r i s = .next t) :
    StateInv t := by
  rcases execWith_cases r i s with ⟨x, nn, -, he⟩ | he <;> rw [he] at h
  · cases h
    exact hs.inv.congr rfl rfl rfl rfl rfl
  · exact exec_keeps_stateInv hs h

/-! ### Steps and events -/

theorem stepWith_keeps_stateInv {r : Byte} {s t : State} (hinv : StateInv s) (h : stepWith r s = .next t) :
    StateInv t := by
  cases hs : s.status with
  | faulted rec =>
    cases (stepBy_faulted (execWith r) s rec hs).symm.trans h
    exact hinv
  | running =>
    obtain ⟨u, hu, rfl⟩ := stepWith_running hs h
    refine StateInv.coupledTick ?_
    rcases cycle_cases (execWith r) s with ⟨-, hc⟩ | ⟨-, -, hc⟩ | ⟨i, hf, -, hc⟩ <;> rw [hc] at hu
    · exact (hinv.takeFault hinv.pc _ _ _).of_next hu
    · exact (hinv.takeFault hinv.pc _ _ _).of_next hu
    · exact execWith_keeps_stateInv (hinv.fetched hs hf) hu

/-- Settles O54: a faulted core stays as it is; a running one faults at `pc` or runs its operation past the word. -/
theorem stepKeepsTheInvariant : Obligations.StepKeepsTheInvariant := by
  intro s t hinv h
  rw [step_eq_stepWith] at h
  exact stepWith_keeps_stateInv hinv h

/-- Settles O53: nothing is listed in memory, `pc` is 0x200, every stack entry 0, and there is no record. -/
theorem resetMeetsTheInvariant : Obligations.ResetMeetsTheInvariant := by
  have hreset (s : State) : StateInv s.resetEvent := by
    have hpc : (0x200 : Word).toNat ≤ 0x10FE := by decide
    refine ⟨rfl, hpc, fun j => ?_, fun rec hrec => by cases hrec⟩
    rw [State.resetEvent_stack]
    decide
  exact ⟨hreset State.reset, hreset⟩

theorem loadImage_keeps_stateInv {s : State} (h : StateInv s) (image : List Byte) : StateInv (s.loadImage image).1 := by
  by_cases hfits : image.length ≤ 3584
  · rw [State.loadImage_of_fits s hfits]
    exact h.writeBytes (Nat.add_le_add_left hfits 0x200)
  · rw [State.loadImage_of_tooLong s (by omega)]
    exact h

theorem applyEvent_keeps_stateInv {e : Event} {s t : State} {a : Answer} (hinv : StateInv s)
    (h : applyEvent e s = .next (t, a)) : StateInv t := by
  cases e with
  | reset => cases h; exact resetMeetsTheInvariant.2 s
  | load image =>
    have ht : (s.loadImage image).1 = t := congrArg Prod.fst (Host.Outcome.next.inj h)
    exact ht ▸ loadImage_keeps_stateInv hinv image
  | step r =>
    obtain ⟨u, hu⟩ := stepWith_next r s
    cases (applyEvent_step hu).symm.trans h
    exact stepWith_keeps_stateInv hinv hu
  | tick => cases h; exact hinv.tick
  | setKey k b => cases h; exact hinv.setKey k b
  | readPixel x y => cases h; exact hinv

theorem applyEvent_next (e : Event) (s : State) : ∃ t a, applyEvent e s = .next (t, a) := by
  cases e with
  | step r =>
    obtain ⟨u, hu⟩ := stepWith_next r s
    exact ⟨u, _, applyEvent_step hu⟩
  | _ => exact ⟨_, _, rfl⟩

/-- Settles O55: by induction on the events, each of which keeps the invariant. -/
theorem runsKeepTheInvariant : Obligations.RunsKeepTheInvariant := by
  intro es s t hinv h
  induction es generalizing s with
  | nil => cases h; exact hinv
  | cons e es ih =>
    obtain ⟨u, a, hu⟩ := applyEvent_next e s
    rw [runEvents_cons hu] at h
    exact ih u (applyEvent_keeps_stateInv hinv hu) h

/-! ### Load and the faulted status -/

/-- Settles O51: a load that fits is one `writeBytes` at 0x200, with its frame; a longer one changes nothing. -/
theorem loadWritesNothingElse : Obligations.LoadWritesNothingElse := by
  intro image s t a h
  rw [applyEvent_load] at h
  constructor
  · intro hfits
    rw [State.loadImage_of_fits s hfits] at h
    cases h
    exact ⟨rfl, frame_writeBytes s 0x200 image⟩
  · intro hlong
    rw [State.loadImage_of_tooLong s hlong] at h
    cases h
    exact ⟨rfl, rfl⟩

/-- A load answers in every status and leaves it. -/
theorem applyEvent_load_status (image : List Byte) (s : State) : ∃ t a, applyEvent (.load image) s = .next (t, a) ∧
    t.status = s.status ∧ (image.length ≤ 3584 → t = s.writeBytes 0x200 image) := by
  rw [applyEvent_load]
  by_cases hfits : image.length ≤ 3584
  · rw [State.loadImage_of_fits s hfits]
    exact ⟨_, _, rfl, (frame_writeBytes s 0x200 image).status (by simp), fun _ => rfl⟩
  · rw [State.loadImage_of_tooLong s (by omega)]
    exact ⟨_, _, rfl, rfl, fun h => absurd h hfits⟩

/-- Settles O14: steps are the identity in the faulted status; no other event but `Reset` writes the status. -/
theorem faultedCoreIgnoresSteps : Obligations.FaultedCoreIgnoresSteps := by
  intro s rec hs
  refine ⟨stepBy_faulted exec s rec hs, fun r => stepBy_faulted (execWith r) s rec hs, rfl, hs, fun k b => ⟨rfl, hs⟩,
    fun x y => rfl, fun image => ?_, s.resetEvent, applyEvent_reset s, rfl⟩
  rw [← hs]
  exact applyEvent_load_status image s

end Sys2Proof.Machine
end

section
/-! PROOFS. Calls, returns and register skips (41_control_flow.md R121, R123, R126, R127, R129). -/

namespace Sys2Proof.Machine

/-! ### Calls and returns -/

/-- A return with the stack in use is a pop and a write of `pc`. -/
theorem exec_ret_of_pos {s : State} {j : Fin 16} (h : s.sp.val = j.val + 1) :
    exec .ret s = .next (State.setPc { s with sp := j.castSucc } s.stack[j]) := by
  have hpop : s.pop = some (s.stack[j], { s with sp := j.castSucc }) := by
    rw [s.pop_spec (by omega)]
    simp only [h, Nat.add_sub_cancel]
    rfl
  simp only [exec, execRet, hpop]

/-- A call below the depth limit is a push of the advanced `pc` and a jump. -/
theorem exec_call_of_lt {s : State} {j : Fin 16} (nnn : Addr12) (h : s.sp.val = j.val) :
    exec (.call nnn) s =
      .next (State.setPc { s with stack := s.stack.set j.val s.pc j.isLt, sp := j.succ } (zextAddr nnn)) := by
  have hpush : s.push s.pc = some { s with stack := s.stack.set j.val s.pc j.isLt, sp := j.succ } := by
    rw [s.push_spec s.pc (by omega)]
    simp only [h]
    rfl
  simp only [exec, execCall, hpush]

/-- Settles O21: the pop of a stack in use, or the own fault of 00EE on an empty one. -/
theorem returnPopsOrUnderflows : Obligations.ReturnPopsOrUnderflows := by
  refine ⟨encoded_row .ret rfl, fun s j hsp => ?_, fun s hsp => exec_faultEntry ⟨rfl, hsp, rfl⟩⟩
  have h := exec_ret_of_pos hsp
  refine ⟨_, h, rfl, rfl, rfl, exec_frame h ?_⟩
  rintro kind info ⟨-, hempty, -⟩
  omega

/-- Settles O22: the push below the depth limit, or the own fault of 2NNN at it. -/
theorem callPushesOrOverflows : Obligations.CallPushesOrOverflows := by
  intro nnn
  refine ⟨encoded_row (.call nnn) rfl, fun s j hsp => ?_, fun s hsp => exec_faultEntry ⟨rfl, hsp, rfl⟩⟩
  have h := exec_call_of_lt nnn hsp
  refine ⟨_, h, ?pushed, ?others, rfl, zextAddr_toNat nnn, exec_frame h ?frame⟩
  case pushed => exact Vector.getElem_set_self j.isLt
  case others =>
    intro k hk
    exact Vector.getElem_set_ne j.isLt k.isLt fun e => hk (Fin.ext e.symm)
  case frame =>
    rintro kind info ⟨-, hfull, -⟩
    omega

/-- Settles O23: the return pops the entry the call pushed. -/
theorem returnUndoesCall : Obligations.ReturnUndoesCall := by
  intro nnn s hsp
  let j : Fin 16 := ⟨s.sp.val, hsp⟩
  refine ⟨_, exec_call_of_lt (j := j) nnn rfl, fun u husp hustack => ?_⟩
  have hu : u.sp.val = j.val + 1 := by rw [husp]; rfl
  refine ⟨_, exec_ret_of_pos hu, ?_, rfl⟩
  rw [State.setPc_pc, hustack]
  exact Vector.getElem_set_self j.isLt

/-! ### Register skips -/

/-- Settles O26: each skip is `State.skipIf` on the comparison of the two registers. -/
theorem registerSkips : Obligations.RegisterSkips := by
  intro x y s
  constructor
  · exact ⟨encoded_row (.seReg x y) rfl, fun strict n hn => decodeWord_encodeXYN_5 strict x y n hn, _, rfl,
      State.skipIf_beq_pc s (s.reg x) (s.reg y), frame_skipIf s _⟩
  · exact ⟨encoded_row (.sneReg x y) rfl, fun strict n hn => decodeWord_encodeXYN_9 strict x y n hn, _, rfl,
      State.skipIf_bne_pc s (s.reg x) (s.reg y), frame_skipIf s _⟩

end Sys2Proof.Machine
end

section
/-! PROOFS. The random byte, the index register and memory (42_alu.md R151; 43_index_memory.md R171 to R175; 20_memory.md
R52, R53, R64). -/

namespace Sys2Proof.Machine

/-- CXNN at the random byte `r`: V[X] gets the masked byte, one more byte is drawn. -/
theorem setReg_drawn_masked (s : State) (x : Reg) (r nn : Byte) :
    Frame [.reg x, .draws] s (s.setReg x (r &&& nn)).drawn ∧
      ∀ k, ((s.setReg x (r &&& nn)).drawn.reg x).getLsbD k = (r.getLsbD k && nn.getLsbD k) := by
  refine ⟨frame_setReg_drawn s x _, fun k => ?_⟩
  rw [State.drawn_reg, State.reg_setReg_same, BitVec.getLsbD_and]

/-- Settles O33: both forms are one write of the masked byte, the free form at the byte of the draw counter. -/
theorem randomByteIsMasked : Obligations.RandomByteIsMasked := by
  intro x nn s
  refine ⟨encoded_row (.rnd x nn) rfl, ?_, fun r => ⟨_, rfl, setReg_drawn_masked s x r nn⟩⟩
  obtain ⟨hframe, hbits⟩ := setReg_drawn_masked s x (Config.randomByte s.draws) nn
  exact ⟨_, rfl, hframe, rfl, hbits⟩

/-- The glyph address does not wrap: at most 0xFFF + 0xFF * 5. -/
theorem glyphAddress_toNat (c : Config) (b : Byte) : (glyphAddress c b).toNat = c.fontBase.toNat + b.toNat * 5 := by
  have := c.fontBase.isLt
  have := b.isLt
  rw [glyphAddress, BitVec.toNat_ofNat]
  omega

/-- Settles O35: each is one write of `I`, whose frame is `[.index]`. -/
theorem indexArithmetic : Obligations.IndexArithmetic := by
  intro x s
  refine ⟨⟨encoded_row (.addIX x) rfl, _, rfl, ?_, frame_setI s _⟩,
    ⟨encoded_row (.ldFX x) rfl, _, rfl, glyphAddress_toNat s.cfg (s.reg x), frame_setI s _⟩⟩
  rw [State.setI_i, BitVec.toNat_add, zextByte_toNat]

/-! ### Stores and loads at `I` -/

theorem exec_bcd_of_fits (x : Reg) {s : State} (h : s.i.toNat + 2 ≤ 0xFFF) :
    exec (.bcd x) s = .next (s.writeBytes s.base (bcdDigits (s.reg x))) := by
  simp only [exec, execBcd, firstOutOfRange_none s.i 3 (by omega)]

theorem exec_store_of_fits (x : Reg) {s : State} (h : s.i.toNat + x.val ≤ 0xFFF) :
    exec (.store x) s = .next (s.writeBytes s.base ((regsUpTo x).map s.reg)) := by
  simp only [exec, execStore, firstOutOfRange_none s.i (x.val + 1) (by omega)]

theorem exec_load_of_fits (x : Reg) {s : State} (h : s.i.toNat + x.val ≤ 0xFFF) :
    exec (.load x) s = .next (s.loadRegs s.base (regsUpTo x)) := by
  simp only [exec, execLoad, firstOutOfRange_none s.i (x.val + 1) (by omega)]

@[simp] theorem bcdDigits_length (b : Byte) : (bcdDigits b).length = 3 := rfl

/-- The three digits of a byte, hundreds first. -/
theorem bcdDigits_toNat (b : Byte) :
    (bcdDigits b)[0].toNat = b.toNat / 100 ∧ (bcdDigits b)[1].toNat = b.toNat / 10 % 10 ∧
      (bcdDigits b)[2].toNat = b.toNat % 10 := by
  have := b.isLt
  simp only [bcdDigits, List.getElem_cons_zero, List.getElem_cons_succ, BitVec.toNat_ofNat]
  omega

/-- Settles O36: three bytes written at `I`, or the bounds fault of FX33. -/
theorem decimalDigitsAreStored : Obligations.DecimalDigitsAreStored := by
  intro x s
  refine ⟨encoded_row (.bcd x) rfl, fun hfits => ?_, fun hout => exec_faultEntry ⟨rfl, by omega, rfl⟩⟩
  have hbyte := State.byteAt_writeBytes_inside s s.i.toNat (bcdDigits (s.reg x))
  obtain ⟨hundreds, tens, ones⟩ := bcdDigits_toNat (s.reg x)
  exact ⟨_, exec_bcd_of_fits x hfits, (congrArg _ (hbyte 0 (by simp))).trans hundreds,
    (congrArg _ (hbyte 1 (by simp))).trans tens, (congrArg _ (hbyte 2 (by simp))).trans ones,
    frame_writeBytes s s.base (bcdDigits (s.reg x))⟩

/-- The bytes FX55 leaves at `I` are the registers. -/
theorem byteAt_writeBytes_regsUpTo (s : State) {x r : Reg} (hr : r ≤ x) :
    (s.writeBytes s.base ((regsUpTo x).map s.reg)).byteAt (s.i.toNat + r.val) = s.reg r := by
  obtain ⟨hlt, hget⟩ := List.getElem?_eq_some_iff.mp (regsUpTo_getElem? x r hr)
  have hbyte := State.byteAt_writeBytes_inside s s.base ((regsUpTo x).map s.reg) r.val (by rwa [List.length_map])
  rwa [List.getElem_map, hget] at hbyte

/-- Settles O37: X + 1 bytes written at `I`, or the bounds fault of FX55. -/
theorem registersAreStored : Obligations.RegistersAreStored := by
  intro x s
  refine ⟨encoded_row (.store x) rfl, fun hfits => ?_, fun hout => exec_faultEntry ⟨rfl, by omega, rfl⟩⟩
  have h := exec_store_of_fits x hfits
  refine ⟨_, h, fun r hr => byteAt_writeBytes_regsUpTo s hr, exec_frame h ?_⟩
  rintro kind info ⟨-, hout, -⟩
  omega

/-- Settles O38: the registers up to VX loaded from `I`, or the bounds fault of FX65. -/
theorem registersAreLoaded : Obligations.RegistersAreLoaded := by
  intro x s
  refine ⟨encoded_row (.load x) rfl, fun hfits => ?_, fun hout => exec_faultEntry ⟨rfl, by omega, rfl⟩⟩
  refine ⟨_, exec_load_of_fits x hfits, fun r hr => ?loaded, fun r hr => ?others, ?frame⟩
  case loaded =>
    rw [State.reg_loadRegs, if_pos ((mem_regsUpTo x r).mpr hr)]
    rfl
  case others => rw [State.reg_loadRegs, if_neg (mt (mem_regsUpTo x r).mp (not_le.mpr hr))]
  case frame =>
    exact (frame_loadRegs s s.base (regsUpTo x)).mono (List.map_subset _ fun r _ => mem_allRegs r)

/-- Settles O40: the fetch at `I` reads the bytes FX55 stored there, V0 high and V1 low. -/
theorem storesAreSeenByTheFetch : Obligations.StoresAreSeenByTheFetch := by
  intro x s hx hfits
  refine ⟨_, exec_store_of_fits x hfits, fun u hmem hpc => ?_⟩
  have hval : 1 ≤ x.val := hx
  have hhigh := byteAt_writeBytes_regsUpTo s (Fin.zero_le x)
  have hlow := byteAt_writeBytes_regsUpTo s hx
  rw [fetch_ok u (by rw [hpc]; omega), hpc, hmem, hmem]
  exact congrArg Except.ok (congrArg₂ wordOfBytes hhigh hlow)

/-! ### One byte of memory -/

theorem memWrite_ok (s : State) {a : Nat} (b : Byte) (h : a ≤ 0xFFF) : memWrite s a b = some (s.setByte a b) := by
  rw [memWrite, if_neg (by omega)]

theorem memWrite_out (s : State) {a : Nat} (b : Byte) (h : 0xFFF < a) : memWrite s a b = none := by
  rw [memWrite, if_pos h]

/-- Settles O39: the laws of one write, read through the bounds check. -/
theorem memoryReadsWhatWasWritten : Obligations.MemoryReadsWhatWasWritten := by
  intro s a b
  refine ⟨fun ha => ⟨memRead_ok s a ha, _, memWrite_ok s b ha, ?same, fun k hk => ?other, ?frame, fun hwf => ?wf⟩,
    fun ha => ⟨memRead_out s a ha, memWrite_out s b ha⟩⟩
  case same => rw [memRead_ok _ a ha, State.byteAt_setByte_same]
  case other => rw [memRead, memRead, State.byteAt_setByte_other s a k b hk]
  case frame => exact frame_writeBytes s a [b]
  case wf => exact s.wf_setByte a b hwf (Nat.lt_succ_of_le ha)

/-! ### A word placed for the next fetch (notes/assumptions/3.md) -/

/-- The table's decoder is the decoder at the default parameters. -/
theorem decodeTableWord_eq (nbits w : Nat) :
    decodeTableWord nbits w = decodeWord Config.default.strict59 (BitVec.ofNat 16 (w % 2 ^ nbits)) := by
  simp only [decodeTableWord, decodeBytes, wordOfBytes_high_low]
  cases decodeWord Config.default.strict59 (BitVec.ofNat 16 (w % 2 ^ nbits)) <;> rfl

theorem frame_withFetchWord (s : State) (nbits w : Nat) :
    Frame [.memory s.pc.toNat 2] s (s.withFetchWord nbits w) :=
  frame_writeBytes s s.pc.toNat [highByte (BitVec.ofNat 16 (w % 2 ^ nbits)), lowByte (BitVec.ofNat 16 (w % 2 ^ nbits))]

theorem wordAtPc_withFetchWord (s : State) (nbits w : Nat) :
    (s.withFetchWord nbits w).wordAtPc = BitVec.ofNat 16 (w % 2 ^ nbits) := by
  have hbyte := State.byteAt_writeBytes_inside s s.pc.toNat
    [highByte (BitVec.ofNat 16 (w % 2 ^ nbits)), lowByte (BitVec.ofNat 16 (w % 2 ^ nbits))]
  have hhigh := hbyte 0 (by simp)
  have hlow := hbyte 1 (by simp)
  rw [State.wordAtPc, (frame_withFetchWord s nbits w).pc (by simp)]
  exact (congrArg₂ wordOfBytes hhigh hlow).trans (wordOfBytes_high_low _)

/-- Settles O56: the placed word is the one at `pc`, and with `STRICT_5_9` it decodes as the table says. -/
theorem placedWordRunsNext : Obligations.PlacedWordRunsNext := by
  intro s w i hs hf hstrict hdecode
  have hframe := frame_withFetchWord s 16 w
  refine stepRunsTheDecodedInstruction _ i ((hframe.status (by simp)).trans hs) ?_ ?_
  · rwa [State.fetchable, hframe.pc (by simp)]
  · rw [decodeTableWord_eq] at hdecode
    rw [State.instrAtPc, wordAtPc_withFetchWord, hframe.cfg, hstrict]
    exact hdecode

end Sys2Proof.Machine
end

section
/-! PROOFS. Sprites (44_display.md R191 to R195; 95_test_vectors.md E7). -/

namespace Sys2Proof.Machine

/-- The framebuffer and the collision flag after the `n` rows at `I` are drawn at (V[X], V[Y]). -/
def State.spriteCanvas (s : State) (x y : Reg) (n : Nat) : Canvas :=
  drawRows s ((s.reg x).toNat % fbWidth) ((s.reg y).toNat % fbHeight) 0 n (s.fb, false)

/-- A draw inside the memory writes the canvas and then the flag. -/
theorem exec_drw_of_fits (x y : Reg) {n : Nat} {s : State} (h : n = 0 ∨ s.i.toNat + n - 1 ≤ 0xFFF) :
    exec (.drw x y n) s = .next ((s.setFb (s.spriteCanvas x y n).1).setFlag (s.spriteCanvas x y n).2) := by
  simp only [exec, execDrw, firstOutOfRange_none s.i n (by omega)]
  rfl

/-- Under the sprite by the loop's account is under it by the statement's. -/
theorem underSprite_iff_spriteBit (s : State) {vx vy n : Nat} (hn : n < 16) (px py : Nat) :
    underSprite s (vx % 64) (vy % 32) 0 n px py ↔ px < 64 ∧ py < 32 ∧ s.spriteBit vx vy n px py = true := by
  have hbit (hpx : px < 64) (hpy : py < 32) :
      underSprite s (vx % 64) (vy % 32) 0 n px py ↔ s.spriteBit vx vy n px py = true := by
    rw [underSprite_iff s _ _ n px py (by omega) (by omega) (by omega) hpx hpy]
    simp only [State.spriteBit, Bool.and_eq_true, decide_eq_true_eq, and_assoc]
    rfl
  constructor
  · intro h
    have ⟨_, _, _, _, _, _, hx, hy⟩ := h
    have hpx : px < 64 := by omega
    have hpy : py < 32 := by omega
    exact ⟨hpx, hpy, (hbit hpx hpy).mp h⟩
  · rintro ⟨hpx, hpy, h⟩
    exact (hbit hpx hpy).mpr h

/-- A draw toggles the pixels under the sprite's set bits. -/
theorem State.spriteCanvas_toggles (s : State) (x y : Reg) {n : Nat} (hn : n < 16) :
    Toggles (fun px py => px < 64 ∧ py < 32 ∧ s.spriteBit (s.reg x).toNat (s.reg y).toNat n px py = true) (s.fb, false)
      (s.spriteCanvas x y n) := by
  have h := drawRows_toggles s ((s.reg x).toNat % 64) ((s.reg y).toNat % 32) n 0 (by omega) (s.fb, false)
  have hunder : underSprite s ((s.reg x).toNat % 64) ((s.reg y).toNat % 32) 0 n = fun px py =>
      px < 64 ∧ py < 32 ∧ s.spriteBit (s.reg x).toNat (s.reg y).toNat n px py = true := by
    funext px py
    exact propext (underSprite_iff_spriteBit s hn px py)
  rwa [hunder] at h

/-- Each pixel of the canvas is the pixel before, inverted under a set bit. -/
theorem State.spriteCanvas_pixel (s : State) (x y : Reg) {n : Nat} (hn : n < 16) {px py : Nat} (hpx : px < 64)
    (hpy : py < 32) : fbGet (s.spriteCanvas x y n).1 px py =
      (s.pixel px py != s.spriteBit (s.reg x).toNat (s.reg y).toNat n px py) := by
  have h := (s.spriteCanvas_toggles x y hn).bit px py hpx hpy
  simp only [hpx, hpy, true_and] at h
  rw [Bool.eq_iff_iff, h, bne_iff_ne, State.pixel]
  cases fbGet s.fb px py <;> simp

/-- A collision is a lit pixel under a set bit. -/
theorem State.spriteCanvas_collision (s : State) (x y : Reg) {n : Nat} (hn : n < 16) :
    (s.spriteCanvas x y n).2 = true ↔ ∃ px py, px < 64 ∧ py < 32 ∧ s.pixel px py = true ∧
      s.spriteBit (s.reg x).toNat (s.reg y).toNat n px py = true := by
  rw [(s.spriteCanvas_toggles x y hn).hit]
  simp only [Bool.false_eq_true, false_or, and_assoc]
  exact exists_congr fun px => exists_congr fun py => and_congr_right fun _ => and_congr_right fun _ => and_comm

theorem State.flag_setFlag_eq_one (s : State) (c : Bool) : (s.setFlag c).reg 0xF = 1 ↔ c = true := by
  rw [State.setFlag, State.reg_setReg_same]
  cases c <;> decide

/-- Settles O42: the canvas's pixels and collision, or the bounds fault of DXYN. -/
theorem drawTogglesTheSprite : Obligations.DrawTogglesTheSprite := by
  intro x y n s hn
  refine ⟨encoded_row (.drw x y n) (decide_eq_true hn), fun hfits => ?_,
    fun hpos hout => exec_faultEntry ⟨rfl, hpos, by omega, rfl⟩⟩
  have h := exec_drw_of_fits x y hfits
  refine ⟨_, h, fun px py hpx hpy => ?pixels, State.flag_setFlag _ _, ?collision, exec_frame h ?_⟩
  case pixels => exact s.spriteCanvas_pixel x y hn hpx hpy
  case collision => rw [State.flag_setFlag_eq_one, s.spriteCanvas_collision x y hn]
  rintro kind info ⟨-, hpos, hout, -⟩
  omega

/-- The sprite is read from `I` and memory alone. -/
theorem State.spriteBit_congr {s t : State} (hi : t.i = s.i) (hmem : ∀ a, t.byteAt a = s.byteAt a)
    (vx vy n px py : Nat) : t.spriteBit vx vy n px py = s.spriteBit vx vy n px py := by
  simp only [State.spriteBit, hi, hmem]

/-- Settles O43: the second draw has the sprite and the coordinates of the first, so it inverts the same pixels back. -/
theorem drawingTwiceRestoresTheScreen : Obligations.DrawingTwiceRestoresTheScreen := by
  intro x y n s hn hx hy hfits
  obtain ⟨-, hdraw, -⟩ := drawTogglesTheSprite x y n s hn
  obtain ⟨t, ht, htpixel, htflag, htcollision, hframe⟩ := hdraw hfits
  have hti : t.i = s.i := hframe.index (by simp)
  obtain ⟨-, hdraw, -⟩ := drawTogglesTheSprite x y n t hn
  obtain ⟨u, hu, hupixel, -, hucollision, -⟩ := hdraw (by rwa [hti])
  have htx : t.reg x = s.reg x := hframe.regs x (by simp [hx])
  have hty : t.reg y = s.reg y := hframe.regs y (by simp [hy])
  have hbit := State.spriteBit_congr hti fun a => hframe.memory a (by simp)
  rw [htx, hty] at hupixel hucollision
  refine ⟨t, u, ht, hu, fb_ext _ _ fun px py hpx hpy => ?restored, fun hblank => ⟨?first, ?second⟩⟩
  case restored =>
    show u.pixel px py = s.pixel px py
    rw [hupixel px py hpx hpy, htpixel px py hpx hpy, hbit]
    simp
  case first =>
    refine htflag.resolve_right fun hone => ?_
    obtain ⟨px, py, hpx, hpy, hlit, -⟩ := htcollision.mp hone
    rw [hblank px py hpx hpy] at hlit
    cases hlit
  case second =>
    rw [hucollision]
    refine exists_congr fun px => exists_congr fun py => and_congr_right fun hpx => and_congr_right fun hpy => ?_
    rw [htpixel px py hpx hpy, hblank px py hpx hpy, hbit]
    simp

end Sys2Proof.Machine
end

section
/-! PROOFS. Keys, timers and the host's ports (45_keys_timers.md R200, R201, R203, R206, R210 to R212; 44_display.md R196). -/

namespace Sys2Proof.Machine

/-! ### Key skips -/

theorem keyNumber_of_toNat_eq {b : Byte} {k : Reg} (h : b.toNat = k.val) : keyNumber b = some k := by
  rw [keyNumber_some b (h ▸ k.isLt)]
  exact congrArg some (Fin.ext h)

theorem exec_skp_of_key {x k : Reg} {s : State} (h : (s.reg x).toNat = k.val) :
    exec (.skp x) s = .next (s.skipIf (s.pressed k)) := by
  simp only [exec, execSkp, keyNumber_of_toNat_eq h]

theorem exec_sknp_of_key {x k : Reg} {s : State} (h : (s.reg x).toNat = k.val) :
    exec (.sknp x) s = .next (s.skipIf (!s.pressed k)) := by
  simp only [exec, execSknp, keyNumber_of_toNat_eq h]

/-- Settles O44: the skip on the key V[X] names, or the own fault of each operation. -/
theorem keySkips : Obligations.KeySkips := by
  intro x s
  refine ⟨encoded_row (.skp x) rfl, encoded_row (.sknp x) rfl, fun k hk => ⟨?pressed, ?released⟩,
    fun hout => ⟨exec_faultEntry ⟨rfl, hout, rfl⟩, exec_faultEntry ⟨rfl, hout, rfl⟩⟩⟩
  case pressed => exact ⟨_, exec_skp_of_key hk, State.skipIf_pc s _, frame_skipIf s _⟩
  case released =>
    refine ⟨_, exec_sknp_of_key hk, ?_, frame_skipIf s _⟩
    rw [State.skipIf_pc, State.pressed]
    cases s.key[k] <;> rfl

/-! ### FX0A -/

/-- A pressed key with none pressed below it is the one FX0A takes. -/
theorem State.lowestKey_of_least {s : State} {k : Reg} (hk : s.pressed k = true)
    (hleast : ∀ j, j < k → s.pressed j = false) : s.lowestKey = some k := by
  cases h : s.lowestKey with
  | none =>
    have hup := (State.lowestKey_eq_none s).mp h k
    rw [hk] at hup
    cases hup
  | some j =>
    obtain ⟨hj, hmin⟩ := s.lowestKey_eq_some j h
    rcases lt_or_eq_of_le (hmin k hk) with hlt | heq
    · rw [hleast j hlt] at hj
      cases hj
    · rw [heq]

/-- Settles O45: with no key pressed one write of `pc`, with a lowest pressed key one write of V[X]. -/
theorem keyReadTakesTheLowestKeyOrWaits : Obligations.KeyReadTakesTheLowestKeyOrWaits := by
  intro x s
  refine ⟨encoded_row (.ldXK x) rfl, fun hup => ⟨_, execLdXK_waits hup, rfl, frame_setPc s _⟩, fun k hk hleast => ?_⟩
  have hkey : s.lowestKey = some k := State.lowestKey_of_least hk hleast
  have h : exec (.ldXK x) s = .next (s.setReg x (BitVec.ofNat 8 k.val)) := by simp only [exec, execLdXK, hkey]
  refine ⟨_, h, ?_, frame_setReg s x _⟩
  rw [State.reg_setReg_same, BitVec.toNat_ofNat]
  omega

/-! ### Events -/

/-- Settles O48: a tick is `State.tick`, each timer `tickTimer`, in every status. -/
theorem tickAndTone : Obligations.TickAndTone := by
  intro s
  refine ⟨⟨s.tick, rfl, tickTimer_toNat s.dt, tickTimer_toNat s.st, frame_tick s⟩, ?_⟩
  rw [tone, bne_iff_ne]

/-- The pixel at (x, y) stands at index `y * 64 + x` of the packed port. -/
theorem packedFramebuffer_getElem? (s : State) (x : Fin 64) (y : Fin 32) :
    (packedFramebuffer s)[y.val * 64 + x.val]? = some (s.pixel x.val y.val) := by
  have hlt : y.val * 64 + x.val < 2048 := by omega
  have hcol : (y.val * 64 + x.val) % 64 = x.val := by omega
  have hrow : (y.val * 64 + x.val) / 64 = y.val := by omega
  rw [Vector.getElem?_eq_getElem hlt, packedFramebuffer, Vector.getElem_ofFn]
  simp only [hcol, hrow]

/-- Settles O49: `SetKey` is one write of the key matrix; `ReadPixel` reads the pixel the packed port holds. -/
theorem keyAndPixelPorts : Obligations.KeyAndPixelPorts := by
  refine ⟨fun s k b => ⟨s.setKey k b, rfl, ?_, fun j hj => ?_, frame_setKey s k b⟩,
    fun s x y => ⟨rfl, packedFramebuffer_getElem? s x y⟩⟩
  · exact (s.pressed_setKey k k b).trans (if_pos rfl)
  · exact (s.pressed_setKey k j b).trans (if_neg hj)

end Sys2Proof.Machine
end
